-- ==== Sys2Proof/Word.lean ====
section
/-! DEFINITION. The word types of the block, and the finite sets of names that a command word selects from. -/

namespace Sys2Proof

/-- A byte: the width of the datapath (00_scope.md R6). -/
abbrev Byte := BitVec 8

/-- A 64-bit register or command word (10_state.md R20, 30_encoding.md R70). -/
abbrev Word64 := BitVec 64

/-- The boolean operation a command performs (30_encoding.md R71). -/
inductive Op where
  | xor | and | or
deriving DecidableEq, Repr

/-- The operand width of a command (30_encoding.md R73; 16 bits is reserved). -/
inductive Width where
  | w8 | w32 | w64
deriving DecidableEq, Repr

/-- The datapath variant of a command (30_encoding.md R72). -/
inductive Variant where
  | direct | lut
deriving DecidableEq, Repr

/-- The command rejection codes held in STATUS.ECODE (60_exceptions.md R210).
Codes 6 to 15 are reserved and never produced, so they have no name here. -/
inductive ErrCode where
  /-- 0: no rejection since the last accepted command -/
  | none
  /-- 1: a reserved bit of the command word is set -/
  | rsvdBits
  /-- 2: OP = 0b11 -/
  | badOp
  /-- 3: W = 0b01 -/
  | badWidth
  /-- 4: V = 1 and the block has no LUT -/
  | noLut
  /-- 5: a CMD write while BUSY = 1 -/
  | busy
deriving DecidableEq, Repr

end Sys2Proof
end

