-- ==== Sys2Proof/Config.lean ====
section
/-! DEFINITION. What an implementation fixes: the open parameters of 00_scope.md R6.

The spec says "A model takes each one as an argument". The fixed types of `exec` and `step` leave no room for one
more argument, so a parameter set is carried as constant data in the state (`State.params`), which no step changes:
a claim about every state holds for every parameter set (log entry 1). `BUS_PROTOCOL` is below the level of this
model (R12). The block leaves no value undefined (93_implementation_defined.md), so no free value stands here. -/

namespace Sys2Proof

/-- The parameters of one block (00_scope.md R6). -/
structure Params where
  /-- `HAS_LUT`: whether the optional lookup table is present (42_lut_variant.md R141). -/
  hasLut : Bool
  /-- `BASE`: the address on the host's bus at which the register window stands (20_memory.md R50).
  The spec gives the bus no address width, so it is a natural number. -/
  base : Nat
deriving DecidableEq, Repr

end Sys2Proof
end

