-- ==== Sys2Proof/Syntax.lean ====
section
/-! DEFINITION. The commands: one constructor per row of spec/opcode_table.json (30_encoding.md R77).
A command has no operand fields: its operands are always OPA and OPB (R76). -/

namespace Sys2Proof

/-- The 18 commands. The suffix `l` marks the LUT variant. -/
inductive Instr where
  | xor8 | and8 | or8
  | xor32 | and32 | or32
  | xor64 | and64 | or64
  | xor8l | and8l | or8l
  | xor32l | and32l | or32l
  | xor64l | and64l | or64l
deriving DecidableEq, Repr

end Sys2Proof
end

