-- ==== Sys2Proof/WellFormed.lean ====
section
/-! DEFINITION. Which parameter sets are allowed, and which commands a block with given parameters implements. -/

namespace Sys2Proof

/-- The window's base is a multiple of 64 (20_memory.md R50). -/
def Params.wellFormed (p : Params) : Bool := p.base % 64 == 0

/-- A command is well formed for a block when the block implements it: an L command needs the lookup table
(30_encoding.md R72, R75). A command has no operands, so nothing else can be ill formed. -/
def Instr.wellFormed (p : Params) : Instr → Bool
  | .xor8 => true
  | .and8 => true
  | .or8 => true
  | .xor32 => true
  | .and32 => true
  | .or32 => true
  | .xor64 => true
  | .and64 => true
  | .or64 => true
  | .xor8l => p.hasLut
  | .and8l => p.hasLut
  | .or8l => p.hasLut
  | .xor32l => p.hasLut
  | .and32l => p.hasLut
  | .or32l => p.hasLut
  | .xor64l => p.hasLut
  | .and64l => p.hasLut
  | .or64l => p.hasLut

end Sys2Proof
end

