-- ==== Sys2Proof/Decode.lean ====
section
/-! DEFINITION. The command word: its fields, the decoder (total on any 64-bit word, rejecting by name), and the
encoder, written from the opcode map of 30_encoding.md R77. -/

namespace Sys2Proof

/-- OP, bits 1:0 (30_encoding.md R70). -/
def cmdOp (c : Word64) : BitVec 2 := c.extractLsb' 0 2

/-- W, bits 3:2 (R70). -/
def cmdW (c : Word64) : BitVec 2 := c.extractLsb' 2 2

/-- V, bit 4 (R70). -/
def cmdV (c : Word64) : BitVec 1 := c.extractLsb' 4 1

/-- RSVD, bits 63:5 (R70, R74). -/
def cmdRsvd (c : Word64) : BitVec 59 := c.extractLsb' 5 59

/-- The operation an OP field selects; 0b11 is reserved (R71). -/
def opOfBits (b : BitVec 2) : Option Op :=
  if b = 0b00#2 then some .xor
  else if b = 0b01#2 then some .and
  else if b = 0b10#2 then some .or
  else none

/-- The width a W field selects; 0b01 is reserved (R73). -/
def widthOfBits (b : BitVec 2) : Option Width :=
  if b = 0b00#2 then some .w8
  else if b = 0b10#2 then some .w32
  else if b = 0b11#2 then some .w64
  else none

/-- The variant a V field selects (R72). -/
def variantOfBit (b : BitVec 1) : Variant := if b = 1#1 then .lut else .direct

/-- The command with given fields. -/
def instrOf : Variant → Width → Op → Instr
  | .direct, .w8, .xor => .xor8
  | .direct, .w8, .and => .and8
  | .direct, .w8, .or => .or8
  | .direct, .w32, .xor => .xor32
  | .direct, .w32, .and => .and32
  | .direct, .w32, .or => .or32
  | .direct, .w64, .xor => .xor64
  | .direct, .w64, .and => .and64
  | .direct, .w64, .or => .or64
  | .lut, .w8, .xor => .xor8l
  | .lut, .w8, .and => .and8l
  | .lut, .w8, .or => .or8l
  | .lut, .w32, .xor => .xor32l
  | .lut, .w32, .and => .and32l
  | .lut, .w32, .or => .or32l
  | .lut, .w64, .xor => .xor64l
  | .lut, .w64, .and => .and64l
  | .lut, .w64, .or => .or64l

/-- Decode a command word, or name the reason it is no command. The checks stand in the order of
60_exceptions.md R211. Whether the block has the LUT is no matter of the encoding (`Instr.wellFormed`). -/
def decode (c : Word64) : Except ErrCode Instr :=
  if cmdRsvd c ≠ 0#59 then .error .rsvdBits
  else
    match opOfBits (cmdOp c) with
    | none => .error .badOp
    | some op =>
      match widthOfBits (cmdW c) with
      | none => .error .badWidth
      | some w => .ok (instrOf (variantOfBit (cmdV c)) w op)

/-- The command word of each command: the "value" column of R77. -/
def encode : Instr → Word64
  | .xor8 => 0x00#64
  | .and8 => 0x01#64
  | .or8 => 0x02#64
  | .xor32 => 0x08#64
  | .and32 => 0x09#64
  | .or32 => 0x0A#64
  | .xor64 => 0x0C#64
  | .and64 => 0x0D#64
  | .or64 => 0x0E#64
  | .xor8l => 0x10#64
  | .and8l => 0x11#64
  | .or8l => 0x12#64
  | .xor32l => 0x18#64
  | .and32l => 0x19#64
  | .or32l => 0x1A#64
  | .xor64l => 0x1C#64
  | .and64l => 0x1D#64
  | .or64l => 0x1E#64

/-- The operation of a command: the OP column of R77. -/
def Instr.op : Instr → Op
  | .xor8 => .xor
  | .and8 => .and
  | .or8 => .or
  | .xor32 => .xor
  | .and32 => .and
  | .or32 => .or
  | .xor64 => .xor
  | .and64 => .and
  | .or64 => .or
  | .xor8l => .xor
  | .and8l => .and
  | .or8l => .or
  | .xor32l => .xor
  | .and32l => .and
  | .or32l => .or
  | .xor64l => .xor
  | .and64l => .and
  | .or64l => .or

/-- The operand width of a command: the W column of R77. -/
def Instr.width : Instr → Width
  | .xor8 => .w8
  | .and8 => .w8
  | .or8 => .w8
  | .xor32 => .w32
  | .and32 => .w32
  | .or32 => .w32
  | .xor64 => .w64
  | .and64 => .w64
  | .or64 => .w64
  | .xor8l => .w8
  | .and8l => .w8
  | .or8l => .w8
  | .xor32l => .w32
  | .and32l => .w32
  | .or32l => .w32
  | .xor64l => .w64
  | .and64l => .w64
  | .or64l => .w64

/-- The datapath variant of a command: the V column of R77. -/
def Instr.variant : Instr → Variant
  | .xor8 => .direct
  | .and8 => .direct
  | .or8 => .direct
  | .xor32 => .direct
  | .and32 => .direct
  | .or32 => .direct
  | .xor64 => .direct
  | .and64 => .direct
  | .or64 => .direct
  | .xor8l => .lut
  | .and8l => .lut
  | .or8l => .lut
  | .xor32l => .lut
  | .and32l => .lut
  | .or32l => .lut
  | .xor64l => .lut
  | .and64l => .lut
  | .or64l => .lut

/-- When a command word is legal (R75): no reserved bit, an operation, a width, and the LUT where V asks for it. -/
def legalWord (hasLut : Bool) (c : Word64) : Bool :=
  decide (cmdRsvd c = 0#59) && decide (cmdOp c ≠ 0b11#2) && decide (cmdW c ≠ 0b01#2) &&
    (decide (cmdV c = 0#1) || hasLut)

/-- The 64-bit word whose low `nbits` bits are those of `w` and whose other bits are 0. A command is one 64-bit word
(R79), so a number that does not fit 64 bits is no command word. -/
def tableWord (nbits w : Nat) : Option Word64 :=
  let v := w % 2 ^ nbits
  if v < 2 ^ 64 then some (BitVec.ofNat 64 v) else none

/-- What the decoder reads from an opcode-table row's bits. -/
def decodeTableWord (nbits w : Nat) : Option Instr :=
  match tableWord nbits w with
  | none => none
  | some c =>
    match decode c with
    | .ok i => some i
    | .error _ => none

end Sys2Proof
end

