-- ==== Sys2Proof/Machine/State.lean ====
section
/-! DEFINITION. The state of the block, the events of its port, the reasons a step can stop, and reset.

There is no program counter and no memory (10_state.md R31, R40): a command is a word that the host writes to CMD. -/

namespace Sys2Proof.Machine

/-- Whether a transaction reads or writes (20_memory.md R51). -/
inductive Kind where
  | read | write
deriving DecidableEq, Repr

/-- The size of a transaction in bytes: one of 1, 2, 4 or 8 (R51). -/
inductive Size where
  | one | two | four | eight
deriving DecidableEq, Repr

/-- A transaction on the register port (R51). `wdata` is used only by writes. -/
structure Transaction where
  kind : Kind
  off : BitVec 6
  size : Size
  wdata : Word64
deriving DecidableEq, Repr

/-- An access on the host's bus, at a host bus address (R50). -/
structure BusAccess where
  kind : Kind
  addr : Nat
  size : Size
  wdata : Word64
deriving DecidableEq, Repr

/-- The block's one response to a transaction (R51). -/
inductive Response where
  | ok (rdata : Word64)
  | err
deriving DecidableEq, Repr

/-- What can happen to the block next (00_scope.md R5). A list of events is one interleaving of the host, the unit
and reset (20_memory.md R63). -/
inductive Event where
  /-- the host carries out one transaction at an offset of the window (R51) -/
  | txn (t : Transaction)
  /-- the host makes an access at an address of its bus; one outside the window never reaches the block (R50) -/
  | bus (a : BusAccess)
  /-- the unit has its turn: one unit step if a command is in flight, nothing otherwise (40_command_execution.md R93) -/
  | unitTurn
  /-- the host writes command word `c` to CMD, and the unit takes every unit step of the accepted command before the
  next event: the one atomic step that R96 allows (log entry 3) -/
  | command (c : Word64)
  /-- reset (70_reset_and_hazards.md R240) -/
  | reset
deriving DecidableEq, Repr

/-- The fields of STATUS (10_state.md R26). Its reserved bits read 0 and hold nothing. -/
structure Status where
  busy : Bool
  done : Bool
  err : Bool
  ecode : ErrCode
deriving DecidableEq, Repr

/-- The state of the block (10_state.md). `params` is constant for a block; `inputs` and `answers` are the model's
own record of its port: what the outside does next, and what the block has answered, newest first (log entry 2). -/
structure State where
  params : Params
  opa : Word64
  opb : Word64
  res : Word64
  lc : Word64
  la : Word64
  lb : Word64
  k : Fin 8
  acc : Word64
  status : Status
  inputs : List Event
  answers : List Response
deriving DecidableEq, Repr

/-- Reasons a step stops with a fault. Both are assertions that 10_state.md R42 allows a model to make: a unit step
is asked for in a state that no run from reset reaches. No instruction's meaning raises one. -/
inductive Fault where
  /-- Raised by the unit step when LC holds no command the block implements (R42 (c), 40_command_execution.md R97).
  Safe: the model stops, in a state the hardware never reaches. -/
  | illegalCommandInFlight
  /-- Raised by the unit step when K is not below the number of bytes of the command (R42 (d)).
  Safe: the model stops, in a state the hardware never reaches. -/
  | counterOutOfRange
deriving DecidableEq, Repr

/-- Reasons a step refuses. -/
inductive Refusal where
  /-- An instruction without a meaning, raised by `exec`'s arm for it. No arm raises it: all 18 have a meaning. Safe. -/
  | notModelled (mnemonic : String)
deriving DecidableEq, Repr

/-- The reset state of a block with parameters `p` (R41): every register and every hidden element 0. -/
def State.resetWith (p : Params) : State where
  params := p
  opa := 0
  opb := 0
  res := 0
  lc := 0
  la := 0
  lb := 0
  k := 0
  acc := 0
  status := { busy := false, done := false, err := false, ecode := .none }
  inputs := []
  answers := []

/-- The machine right after reset, for a block with the LUT and its window at bus address 0. The registers' values
are the spec's (R41). The spec leaves the two parameters open, and the choice here is the model's (DESIGN CHOICE, log
entry 1): what is said of reset in general is said of `State.resetWith p` for every `p`. -/
def State.reset : State := State.resetWith { hasLut := true, base := 0 }

end Sys2Proof.Machine
end

