-- ==== Sys2Proof/Machine/Operands.lean ====
section
/-! DEFINITION. Operand access: the byte positions of a word, the accumulator's shift, the operand width. -/

namespace Sys2Proof.Machine

/-- Byte position `j` of a word: bits `[8j+7:8j]` (00_scope.md R11). -/
def byteAt (x : Word64) (j : Nat) : Byte := x.extractLsb' (8 * j) 8

/-- `ACC[55:0] ++ r`: shift a result byte in at the low end (40_command_execution.md R93). -/
def pushByte (acc : Word64) (r : Byte) : Word64 :=
  let wide : BitVec (56 + 8) := acc.extractLsb' 0 56 ++ r
  wide

/-- `NBYTES(W) = 2^W` (40_command_execution.md R92). -/
def nbytes (w : BitVec 2) : Nat := 2 ^ w.toNat

/-- The number of bytes of each width: 1, 4, 8 (30_encoding.md R73). -/
def widthBytes : Width → Nat
  | .w8 => 1
  | .w32 => 4
  | .w64 => 8

/-- The byte position that serial index `k` of an `n`-byte operand takes: most significant byte first
(40_command_execution.md R94). -/
def bytePosition (n k : Nat) : Nat := n - 1 - k

end Sys2Proof.Machine
end

