-- ==== Sys2Proof/Machine/Flags.lean ====
section
/-! DEFINITION. STATUS and CAP: their words, and every way a flag changes (10_state.md R26 to R29, R32).
There are no condition codes. -/

namespace Sys2Proof.Machine

/-- The ECODE field of a code (60_exceptions.md R210). -/
def ecodeBits : ErrCode → BitVec 4
  | .none => 0
  | .rsvdBits => 1
  | .badOp => 2
  | .badWidth => 3
  | .noLut => 4
  | .busy => 5

/-- `zext_64(ECODE ++ 0b0 ++ ERR ++ DONE ++ BUSY)`: what a STATUS read returns (20_memory.md R53, 10_state.md R26). -/
def Status.toWord (f : Status) : Word64 :=
  (ecodeBits f.ecode ++ 0#1 ++ BitVec.ofBool f.err ++ BitVec.ofBool f.done ++ BitVec.ofBool f.busy).zeroExtend 64

/-- The flags at acceptance: BUSY set, the others cleared (40_command_execution.md R90). -/
def Status.onAccept (_ : Status) : Status := { busy := true, done := false, err := false, ecode := .none }

/-- The flags at a rejection: ERR set and the code recorded, BUSY and DONE kept (60_exceptions.md R212). -/
def Status.onReject (e : ErrCode) (f : Status) : Status := { f with err := true, ecode := e }

/-- The flags at completion: BUSY cleared and DONE set, ERR and ECODE kept (40_command_execution.md R95). -/
def Status.onComplete (f : Status) : Status := { f with busy := false, done := true }

/-- CAP: bit 0 LUT, bits 1 to 3 W8, W32 and W64, bits 15:8 REV = 1, the others 0 (10_state.md R28). -/
def capWord (p : Params) : Word64 :=
  (0x01#8 ++ 0#4 ++ 1#1 ++ 1#1 ++ 1#1 ++ BitVec.ofBool p.hasLut).zeroExtend 64

end Sys2Proof.Machine
end

