-- ==== Sys2Proof/Machine/Datapath.lean ====
section
/-! DEFINITION. The 8-bit bit-plane datapath, direct variant (41_bitplane_datapath.md). Adders and subtractors are
8 bits wide and wrap; R121 says that none ever carries out or borrows. -/

namespace Sys2Proof.Machine

/-- Bit-plane extraction: keep bits 1, 3, 5, 7 and shift right by 1 (R111). It is also the E-plane (R114). -/
def extract (x : Byte) : Byte := (x &&& 0xAA#8) >>> 1

/-- `even(x) = extract(x) << 1`: the bits of `x` at positions 1, 3, 5, 7, in place (R112). -/
def evenPart (x : Byte) : Byte := extract x <<< 1

/-- `odd(x) = x - even(x)`: the O-plane, the bits of `x` at positions 0, 2, 4, 6 (R113, R114). -/
def oddPart (x : Byte) : Byte := x - evenPart x

/-- The plane AND: the carry of each lane, moved down by the extraction `X` (R117). -/
def planeAnd (X : Byte → Byte) (P Q : Byte) : Byte := X (P + Q)

/-- The plane XOR: `S - (A << 1)` (R118). -/
def planeXor (X : Byte → Byte) (P Q : Byte) : Byte := (P + Q) - (planeAnd X P Q <<< 1)

/-- The plane OR: `S - A` (R119). -/
def planeOr (X : Byte → Byte) (P Q : Byte) : Byte := (P + Q) - planeAnd X P Q

/-- `PLANEOP(op, P, Q, X)`: the selected identity on two packed planes (R120). -/
def planeOp (op : Op) (X : Byte → Byte) (P Q : Byte) : Byte :=
  match op with
  | .xor => planeXor X P Q
  | .and => planeAnd X P Q
  | .or => planeOr X P Q

/-- Byte composition with extraction `X`: decompose both operands into packed planes, apply the plane identity to
each pair, recombine (R123, R125; 42_lut_variant.md R142). -/
def byteCompose (op : Op) (X : Byte → Byte) (a b : Byte) : Byte :=
  let ea := X a
  let eb := X b
  let oa := a - (ea <<< 1)
  let ob := b - (eb <<< 1)
  let re := planeOp op X ea eb
  let ro := planeOp op X oa ob
  ro + (re <<< 1)

/-- `BYTEOP_direct(op, a, b)` (R125). -/
def byteOpDirect (op : Op) (a b : Byte) : Byte := byteCompose op extract a b

end Sys2Proof.Machine
end

