-- ==== Sys2Proof/Machine/Lut.lean ====
section
/-! DEFINITION. The lookup-table variant (42_lut_variant.md): the 256-entry ROM, written out from the table of R140,
the byte primitive that reads it, and the byte primitive of both variants. The table is a constant: nothing writes it
and reset does not touch it (R141). It is there only in a block with `HAS_LUT`; a command that would read it
elsewhere is rejected (R141). -/

namespace Sys2Proof.Machine

/-- `LUT[0x00]` to `LUT[0x0F]` (R140). -/
def lutRow0 : List Byte :=
  [0x00, 0x00, 0x01, 0x01, 0x00, 0x00, 0x01, 0x01, 0x04, 0x04, 0x05, 0x05, 0x04, 0x04, 0x05, 0x05]

/-- `LUT[0x10]` to `LUT[0x1F]` (R140). -/
def lutRow1 : List Byte :=
  [0x00, 0x00, 0x01, 0x01, 0x00, 0x00, 0x01, 0x01, 0x04, 0x04, 0x05, 0x05, 0x04, 0x04, 0x05, 0x05]

/-- `LUT[0x20]` to `LUT[0x2F]` (R140). -/
def lutRow2 : List Byte :=
  [0x10, 0x10, 0x11, 0x11, 0x10, 0x10, 0x11, 0x11, 0x14, 0x14, 0x15, 0x15, 0x14, 0x14, 0x15, 0x15]

/-- `LUT[0x30]` to `LUT[0x3F]` (R140). -/
def lutRow3 : List Byte :=
  [0x10, 0x10, 0x11, 0x11, 0x10, 0x10, 0x11, 0x11, 0x14, 0x14, 0x15, 0x15, 0x14, 0x14, 0x15, 0x15]

/-- `LUT[0x40]` to `LUT[0x4F]` (R140). -/
def lutRow4 : List Byte :=
  [0x00, 0x00, 0x01, 0x01, 0x00, 0x00, 0x01, 0x01, 0x04, 0x04, 0x05, 0x05, 0x04, 0x04, 0x05, 0x05]

/-- `LUT[0x50]` to `LUT[0x5F]` (R140). -/
def lutRow5 : List Byte :=
  [0x00, 0x00, 0x01, 0x01, 0x00, 0x00, 0x01, 0x01, 0x04, 0x04, 0x05, 0x05, 0x04, 0x04, 0x05, 0x05]

/-- `LUT[0x60]` to `LUT[0x6F]` (R140). -/
def lutRow6 : List Byte :=
  [0x10, 0x10, 0x11, 0x11, 0x10, 0x10, 0x11, 0x11, 0x14, 0x14, 0x15, 0x15, 0x14, 0x14, 0x15, 0x15]

/-- `LUT[0x70]` to `LUT[0x7F]` (R140). -/
def lutRow7 : List Byte :=
  [0x10, 0x10, 0x11, 0x11, 0x10, 0x10, 0x11, 0x11, 0x14, 0x14, 0x15, 0x15, 0x14, 0x14, 0x15, 0x15]

/-- `LUT[0x80]` to `LUT[0x8F]` (R140). -/
def lutRow8 : List Byte :=
  [0x40, 0x40, 0x41, 0x41, 0x40, 0x40, 0x41, 0x41, 0x44, 0x44, 0x45, 0x45, 0x44, 0x44, 0x45, 0x45]

/-- `LUT[0x90]` to `LUT[0x9F]` (R140). -/
def lutRow9 : List Byte :=
  [0x40, 0x40, 0x41, 0x41, 0x40, 0x40, 0x41, 0x41, 0x44, 0x44, 0x45, 0x45, 0x44, 0x44, 0x45, 0x45]

/-- `LUT[0xA0]` to `LUT[0xAF]` (R140). -/
def lutRowA : List Byte :=
  [0x50, 0x50, 0x51, 0x51, 0x50, 0x50, 0x51, 0x51, 0x54, 0x54, 0x55, 0x55, 0x54, 0x54, 0x55, 0x55]

/-- `LUT[0xB0]` to `LUT[0xBF]` (R140). -/
def lutRowB : List Byte :=
  [0x50, 0x50, 0x51, 0x51, 0x50, 0x50, 0x51, 0x51, 0x54, 0x54, 0x55, 0x55, 0x54, 0x54, 0x55, 0x55]

/-- `LUT[0xC0]` to `LUT[0xCF]` (R140). -/
def lutRowC : List Byte :=
  [0x40, 0x40, 0x41, 0x41, 0x40, 0x40, 0x41, 0x41, 0x44, 0x44, 0x45, 0x45, 0x44, 0x44, 0x45, 0x45]

/-- `LUT[0xD0]` to `LUT[0xDF]` (R140). -/
def lutRowD : List Byte :=
  [0x40, 0x40, 0x41, 0x41, 0x40, 0x40, 0x41, 0x41, 0x44, 0x44, 0x45, 0x45, 0x44, 0x44, 0x45, 0x45]

/-- `LUT[0xE0]` to `LUT[0xEF]` (R140). -/
def lutRowE : List Byte :=
  [0x50, 0x50, 0x51, 0x51, 0x50, 0x50, 0x51, 0x51, 0x54, 0x54, 0x55, 0x55, 0x54, 0x54, 0x55, 0x55]

/-- `LUT[0xF0]` to `LUT[0xFF]` (R140). -/
def lutRowF : List Byte :=
  [0x50, 0x50, 0x51, 0x51, 0x50, 0x50, 0x51, 0x51, 0x54, 0x54, 0x55, 0x55, 0x54, 0x54, 0x55, 0x55]

/-- The contents of the LUT, index 0 first (R140, R145). -/
def lutTable : List Byte :=
  lutRow0 ++ lutRow1 ++ lutRow2 ++ lutRow3 ++ lutRow4 ++ lutRow5 ++ lutRow6 ++ lutRow7 ++
  lutRow8 ++ lutRow9 ++ lutRowA ++ lutRowB ++ lutRowC ++ lutRowD ++ lutRowE ++ lutRowF

/-- A LUT read. The index is a byte and the table has 256 entries, so the default is never taken (R143). -/
def lutRead (x : Byte) : Byte := lutTable.getD x.toNat 0

/-- `BYTEOP_lut(op, a, b)`: the direct primitive with every extraction replaced by a LUT read (R142, R146). -/
def byteOpLut (op : Op) (a b : Byte) : Byte := byteCompose op lutRead a b

/-- `BYTEOP(op, v, a, b)` (40_command_execution.md R97). -/
def byteOp (op : Op) (v : Variant) (a b : Byte) : Byte :=
  match v with
  | .direct => byteOpDirect op a b
  | .lut => byteOpLut op a b

/-- The word function's loop (44_word_commands.md R180), after the first `k` bytes of an `n`-byte pair: each byte
pair, most significant first, gives one result byte at the low end. -/
def serialBytes (f : Byte → Byte → Byte) (n : Nat) (a b : Word64) : Nat → Word64
  | 0 => 0
  | k + 1 =>
    pushByte (serialBytes f n a b k) (f (byteAt a (bytePosition n k)) (byteAt b (bytePosition n k)))

/-- `zext_64(WORDOP(op, v, n, A, B))` with `f = BYTEOP(op, v, ·, ·)` (R180). -/
def wordOp (f : Byte → Byte → Byte) (n : Nat) (a b : Word64) : Word64 := serialBytes f n a b n

end Sys2Proof.Machine
end

