-- ==== Sys2Proof/Machine/Ops.lean ====
section
/-! DEFINITION. The shared operations: register access, issue (acceptance and rejection), the unit step and
completion, reset. -/

namespace Sys2Proof.Machine

/-- What a step answers. -/
abbrev Result := Host.Outcome State Fault Refusal

/-! ## Issue -/

/-- Why a CMD write of `c` is rejected, if it is: the first check that fails, in order (60_exceptions.md R211). -/
def rejection (s : State) (c : Word64) : Option ErrCode :=
  if s.status.busy = true then some .busy
  else if cmdRsvd c ≠ 0#59 then some .rsvdBits
  else if cmdOp c = 0b11#2 then some .badOp
  else if cmdW c = 0b01#2 then some .badWidth
  else if cmdV c = 1#1 ∧ s.params.hasLut = false then some .noLut
  else none

/-- `reject(code)`: the block's one way to record an error. It takes no trap (60_exceptions.md R212, R213). -/
def reject (e : ErrCode) (s : State) : State := { s with status := s.status.onReject e }

/-- Acceptance of command word `c`, one atomic step (40_command_execution.md R90). -/
def accept (c : Word64) (s : State) : State :=
  { s with lc := c, la := s.opa, lb := s.opb, k := 0, acc := 0, status := s.status.onAccept }

/-- `issue(c)`: a CMD write is accepted or rejected (R90, R91, R211). -/
def issue (c : Word64) (s : State) : State :=
  match rejection s c with
  | some e => reject e s
  | none => accept c s

/-! ## The unit -/

/-- `complete()`: RES takes ACC as a whole, BUSY is cleared and DONE set, K returns to 0 (R95). -/
def complete (s : State) : State := { s with res := s.acc, status := s.status.onComplete, k := 0 }

/-- One unit step (R93). The two faults are the assertions of 10_state.md R42 (c) and (d). -/
def unitStep (s : State) : Result :=
  let n := nbytes (cmdW s.lc)
  match opOfBits (cmdOp s.lc) with
  | none => .fault .illegalCommandInFlight
  | some op =>
    if cmdRsvd s.lc ≠ 0#59 ∨ cmdW s.lc = 0b01#2 ∨ (cmdV s.lc = 1#1 ∧ s.params.hasLut = false) then
      .fault .illegalCommandInFlight
    else if n ≤ s.k.val then .fault .counterOutOfRange
    else
      let j := bytePosition n s.k.val
      let r := byteOp op (variantOfBit (cmdV s.lc)) (byteAt s.la j) (byteAt s.lb j)
      let s1 := { s with acc := pushByte s.acc r }
      if s.k.val + 1 = n then .next (complete s1) else .next { s1 with k := s.k + 1 }

/-- The unit's turn: a unit step is enabled exactly when BUSY = 1 (R93); otherwise the unit is idle and every
register keeps its value (60_exceptions.md R224). -/
def unitTurn (s : State) : Result := if s.status.busy = true then unitStep s else .next s

/-! ## The register port -/

/-- What a legal read at an offset returns (20_memory.md R53, 10_state.md R21); none where no register stands. -/
def readRegister (off : BitVec 6) (s : State) : Option Word64 :=
  if off = 0x00#6 then some s.opa
  else if off = 0x08#6 then some s.opb
  else if off = 0x10#6 then some s.lc
  else if off = 0x18#6 then some s.res
  else if off = 0x20#6 then some s.status.toWord
  else if off = 0x28#6 then some (capWord s.params)
  else none

/-- When a transaction is legal (R52). -/
def legalTransaction (t : Transaction) : Bool :=
  decide (t.size = .eight) && decide (t.off.toNat % 8 = 0) && decide (t.off.toNat ≤ 0x28)

/-- A write to a register: OPA and OPB take the data (R54), CMD issues a command (R55), the others are read-only
and answer ERR (R56). -/
def writeRegister (off : BitVec 6) (v : Word64) (s : State) : State × Response :=
  if off = 0x00#6 then ({ s with opa := v }, .ok 0)
  else if off = 0x08#6 then ({ s with opb := v }, .ok 0)
  else if off = 0x10#6 then (issue v s, .ok 0)
  else (s, .err)

/-- Carry out one transaction: the block after it, and its response (R57). -/
def transact (t : Transaction) (s : State) : State × Response :=
  if legalTransaction t = false then (s, .err)
  else
    match t.kind with
    | .read =>
      match readRegister t.off s with
      | some v => (s, .ok v)
      | none => (s, .err)
    | .write => writeRegister t.off t.wdata s

/-- Record a response on the port. -/
def answer (r : Response) (s : State) : State := { s with answers := r :: s.answers }

/-- A transaction together with its response on the port (R51: exactly one). -/
def serve (t : Transaction) (s : State) : State := answer (transact t s).2 (transact t s).1

/-- The read data that a response carries, 0 for ERR (R57). -/
def Response.rdata : Response → Word64
  | .ok v => v
  | .err => 0

/-- The window offset that a host bus address reaches, if it lies in the 64-byte window (R50). -/
def windowOffset (base addr : Nat) : Option (BitVec 6) :=
  if base ≤ addr ∧ addr < base + 64 then some (BitVec.ofNat 6 (addr - base)) else none

/-- A bus access: a transaction where it reaches the window; elsewhere it never reaches the block (R50). -/
def serveBus (a : BusAccess) (s : State) : State :=
  match windowOffset s.params.base a.addr with
  | some off => serve { kind := a.kind, off := off, size := a.size, wdata := a.wdata } s
  | none => s

/-! ## Reset -/

/-- Reset (70_reset_and_hazards.md R240): every register and hidden element takes its value of R41, and a command in
flight is abandoned. What stays is no state of the block: its parameters, and the record of its port. -/
def resetBlock (s : State) : State :=
  { State.resetWith s.params with inputs := s.inputs, answers := s.answers }

/-! ## A command, from its CMD write to its completion -/

/-- The common behaviour of an 8-bit command with word `c` and byte primitive `f`: rejected, or accepted, run for its
one unit step and completed (43_byte_commands.md R160). -/
def runByteCommand (c : Word64) (f : Byte → Byte → Byte) (s : State) : State :=
  match rejection s c with
  | some e => reject e s
  | none =>
    let s1 := accept c s
    let r := f (byteAt s1.la 0) (byteAt s1.lb 0)
    complete { s1 with acc := pushByte s1.acc r }

/-- The common behaviour of an `n`-byte word command with word `c` and byte primitive `f`: rejected, or accepted, run
for its `n` unit steps and completed (44_word_commands.md R181). -/
def runWordCommand (c : Word64) (n : Nat) (f : Byte → Byte → Byte) (s : State) : State :=
  match rejection s c with
  | some e => reject e s
  | none =>
    let s1 := accept c s
    complete { s1 with acc := wordOp f n s1.la s1.lb }

end Sys2Proof.Machine
end

