-- ==== Sys2Proof/Machine/ByteCommands.lean ====
section
/-! DEFINITION. The six 8-bit commands (43_byte_commands.md). A rejected command is a next state with ERR and ECODE set. -/

namespace Sys2Proof.Machine

/-- XOR8: 8-bit exclusive OR, direct variant (R161). -/
def execXor8 (s : State) : Result :=
  .next (runByteCommand 0x00#64 (byteOpDirect .xor) s)

/-- AND8: 8-bit AND, direct variant (R162). -/
def execAnd8 (s : State) : Result :=
  .next (runByteCommand 0x01#64 (byteOpDirect .and) s)

/-- OR8: 8-bit inclusive OR, direct variant (R163). -/
def execOr8 (s : State) : Result :=
  .next (runByteCommand 0x02#64 (byteOpDirect .or) s)

/-- XOR8L: 8-bit exclusive OR, LUT variant (R164). -/
def execXor8l (s : State) : Result :=
  .next (runByteCommand 0x10#64 (byteOpLut .xor) s)

/-- AND8L: 8-bit AND, LUT variant (R165). -/
def execAnd8l (s : State) : Result :=
  .next (runByteCommand 0x11#64 (byteOpLut .and) s)

/-- OR8L: 8-bit inclusive OR, LUT variant (R166). -/
def execOr8l (s : State) : Result :=
  .next (runByteCommand 0x12#64 (byteOpLut .or) s)

end Sys2Proof.Machine
end

