-- ==== Sys2Proof/Machine/WordCommands.lean ====
section
/-! DEFINITION. The twelve 32-bit and 64-bit commands (44_word_commands.md). A rejected command is a next state with ERR and
ECODE set. -/

namespace Sys2Proof.Machine

/-- XOR32: 32-bit exclusive OR, direct variant (R182). -/
def execXor32 (s : State) : Result :=
  .next (runWordCommand 0x08#64 4 (byteOpDirect .xor) s)

/-- AND32: 32-bit AND, direct variant (R183). -/
def execAnd32 (s : State) : Result :=
  .next (runWordCommand 0x09#64 4 (byteOpDirect .and) s)

/-- OR32: 32-bit inclusive OR, direct variant (R184). -/
def execOr32 (s : State) : Result :=
  .next (runWordCommand 0x0A#64 4 (byteOpDirect .or) s)

/-- XOR32L: 32-bit exclusive OR, LUT variant (R185). -/
def execXor32l (s : State) : Result :=
  .next (runWordCommand 0x18#64 4 (byteOpLut .xor) s)

/-- AND32L: 32-bit AND, LUT variant (R186). -/
def execAnd32l (s : State) : Result :=
  .next (runWordCommand 0x19#64 4 (byteOpLut .and) s)

/-- OR32L: 32-bit inclusive OR, LUT variant (R187). -/
def execOr32l (s : State) : Result :=
  .next (runWordCommand 0x1A#64 4 (byteOpLut .or) s)

/-- XOR64: 64-bit exclusive OR, direct variant (R188). -/
def execXor64 (s : State) : Result :=
  .next (runWordCommand 0x0C#64 8 (byteOpDirect .xor) s)

/-- AND64: 64-bit AND, direct variant (R189). -/
def execAnd64 (s : State) : Result :=
  .next (runWordCommand 0x0D#64 8 (byteOpDirect .and) s)

/-- OR64: 64-bit inclusive OR, direct variant (R190). -/
def execOr64 (s : State) : Result :=
  .next (runWordCommand 0x0E#64 8 (byteOpDirect .or) s)

/-- XOR64L: 64-bit exclusive OR, LUT variant (R191). -/
def execXor64l (s : State) : Result :=
  .next (runWordCommand 0x1C#64 8 (byteOpLut .xor) s)

/-- AND64L: 64-bit AND, LUT variant (R192). -/
def execAnd64l (s : State) : Result :=
  .next (runWordCommand 0x1D#64 8 (byteOpLut .and) s)

/-- OR64L: 64-bit inclusive OR, LUT variant (R193). -/
def execOr64l (s : State) : Result :=
  .next (runWordCommand 0x1E#64 8 (byteOpLut .or) s)

end Sys2Proof.Machine
end

