-- ==== Sys2Proof/Machine/Dispatch.lean ====
section
/-! DEFINITION. One arm per command: its meaning, from the CMD write of its word to its completion. -/

namespace Sys2Proof.Machine

def exec (i : Instr) (s : State) : Host.Outcome State Fault Refusal :=
  match i with
  | .xor8 => Sys2Proof.Machine.execXor8 s
  | .and8 => Sys2Proof.Machine.execAnd8 s
  | .or8 => Sys2Proof.Machine.execOr8 s
  | .xor32 => Sys2Proof.Machine.execXor32 s
  | .and32 => Sys2Proof.Machine.execAnd32 s
  | .or32 => Sys2Proof.Machine.execOr32 s
  | .xor64 => Sys2Proof.Machine.execXor64 s
  | .and64 => Sys2Proof.Machine.execAnd64 s
  | .or64 => Sys2Proof.Machine.execOr64 s
  | .xor8l => Sys2Proof.Machine.execXor8l s
  | .and8l => Sys2Proof.Machine.execAnd8l s
  | .or8l => Sys2Proof.Machine.execOr8l s
  | .xor32l => Sys2Proof.Machine.execXor32l s
  | .and32l => Sys2Proof.Machine.execAnd32l s
  | .or32l => Sys2Proof.Machine.execOr32l s
  | .xor64l => Sys2Proof.Machine.execXor64l s
  | .and64l => Sys2Proof.Machine.execAnd64l s
  | .or64l => Sys2Proof.Machine.execOr64l s

end Sys2Proof.Machine
end

