-- ==== Sys2Proof/Machine/Step.lean ====
section
/-! DEFINITION. One step of the block: the next pending event; with none pending, the unit's own turn. -/

namespace Sys2Proof.Machine

/-- What one event does. A command word that decodes is run by `exec`; any other is rejected by `issue`. The CMD
write behind a command answers OK(0) either way (20_memory.md R55). -/
def handle (e : Event) (s : State) : Host.Outcome State Fault Refusal :=
  match e with
  | .txn t => .next (serve t s)
  | .bus a => .next (serveBus a s)
  | .unitTurn => unitTurn s
  | .command c =>
    match decode c with
    | .ok i => exec i (answer (.ok 0) s)
    | .error _ => .next (issue c (answer (.ok 0) s))
  | .reset => .next (resetBlock s)

/-- One step. With no event pending, a busy block takes a unit step (40_command_execution.md R99) and a quiescent one
keeps its state (R100). -/
def step (s : State) : Host.Outcome State Fault Refusal :=
  match s.inputs with
  | [] => unitTurn s
  | e :: rest => handle e { s with inputs := rest }

/-- `s` with the command word of an opcode-table row placed as its next event. A number that is no 64-bit word places
nothing. -/
def State.withFetchWord (s : State) (nbits w : Nat) : State :=
  match tableWord nbits w with
  | some c => { s with inputs := .command c :: s.inputs }
  | none => s

end Sys2Proof.Machine
end

