-- ==== Sys2Proof/Machine/Clock.lean ====
section
/-! DEFINITION. The reference clock model, as schedules of `step` (70_reset_and_hazards.md R251): no new behaviour,
one order of events among those of 20_memory.md R63. -/

namespace Sys2Proof.Machine

/-- What one clock cycle brings to the block: the level of `rst`, and at most one host transaction (60_exceptions.md
R217). -/
structure CycleInput where
  rst : Bool
  txn : Option Transaction
deriving DecidableEq, Repr

/-- The events of one cycle. Reset takes precedence over both others, and while `rst` is high there is neither a
transaction nor a unit step (R217, R241, R242). Otherwise the unit goes first and the transaction second (20_memory.md
R65), so an accepted command has its first unit step in the cycle after acceptance (R251). -/
def cycleEvents (c : CycleInput) : List Event :=
  if c.rst = true then [.reset]
  else
    match c.txn with
    | none => [.unitTurn]
    | some t => [.unitTurn, .txn t]

/-- The events of a run of cycles. -/
def clockEvents : List CycleInput → List Event
  | [] => []
  | c :: cs => cycleEvents c ++ clockEvents cs

/-- A cycle without reset and without a transaction. -/
def idleCycle : CycleInput := { rst := false, txn := none }

/-- The cycles from the accepting CMD write to completion in the reference implementation, one unit step a cycle
(R252). -/
def latency (i : Instr) : Nat := nbytes (cmdW (encode i))

end Sys2Proof.Machine
end

