-- ==== Sys2Proof/Machine/Script.lean ====
section
/-! DEFINITION. The host script notation (30_encoding.md R80 to R83): a host agent that runs a script against the
block. The host's temporaries are no state of the block (R81), so they stand here and not in `State`. -/

namespace Sys2Proof.Machine

/-- The registers a script names (R81, 10_state.md R21). -/
inductive RegName where
  | opa | opb | cmd | res | status | cap
deriving DecidableEq, Repr

/-- `off(REG)` (10_state.md R21). -/
def RegName.offset : RegName → BitVec 6
  | .opa => 0x00#6
  | .opb => 0x08#6
  | .cmd => 0x10#6
  | .res => 0x18#6
  | .status => 0x20#6
  | .cap => 0x28#6

/-- The host temporaries (R81, R82). -/
inductive Temp where
  | t (n : Nat) | tS | tR | terr
deriving DecidableEq, Repr

/-- A label of a script. The notation's names are numbers here. -/
abbrev Label := Nat

/-- The value a `wr` writes: a constant or a temporary (R81). -/
inductive Operand where
  | imm (v : Word64)
  | temp (t : Temp)
deriving DecidableEq, Repr

/-- The statements (R81). -/
inductive Stmt where
  | wr (r : RegName) (v : Operand)
  | rd (t : Temp) (r : RegName)
  | bbs (t : Temp) (bit : Fin 64) (l : Label)
  | bbc (t : Temp) (bit : Fin 64) (l : Label)
  | b (l : Label)
  | mov (dst src : Temp)
  | halt
deriving DecidableEq, Repr

/-- One line: an optional label and a statement (R81). -/
structure Line where
  label : Option Label
  stmt : Stmt
deriving DecidableEq, Repr

/-- A script. -/
abbrev Script := List Line

/-- `poll`, with its fresh label (R82). -/
def Script.poll (fresh : Label) : Script :=
  [⟨some fresh, .rd .tS .status⟩, ⟨none, .bbs .tS 0 fresh⟩]

/-- `run MNEM`: the mnemonic stands for its command word (R80, R82). -/
def Script.run (i : Instr) (fresh : Label) : Script :=
  ⟨none, .wr .cmd (.imm (encode i))⟩ :: Script.poll fresh

/-- `op MNEM, a, b` (R82). -/
def Script.op (i : Instr) (a b : Operand) (fresh : Label) : Script :=
  ⟨none, .wr .opa a⟩ :: ⟨none, .wr .opb b⟩ :: (Script.run i fresh ++ [⟨none, .rd .tR .res⟩])

/-- `check`, with its conventional branch to an error label (R82). -/
def Script.check (error : Label) : Script :=
  [⟨none, .rd .tS .status⟩, ⟨none, .bbs .tS 2 error⟩]

/-- The host agent: its temporaries, the line it stands at, whether it has halted, and the transactions it has issued,
newest first (R81, R83). -/
structure HostAgent where
  temps : List (Temp × Word64)
  line : Nat
  halted : Bool
  issued : List Transaction
deriving DecidableEq, Repr

/-- A host before its script's first statement. -/
def HostAgent.start : HostAgent := { temps := [], line := 0, halted := false, issued := [] }

/-- Read a temporary; one that nothing has set reads 0 (log entry 6). -/
def HostAgent.get (h : HostAgent) (t : Temp) : Word64 := (h.temps.lookup t).getD 0

/-- Set a temporary. -/
def HostAgent.set (h : HostAgent) (t : Temp) (v : Word64) : HostAgent :=
  { h with temps := (t, v) :: h.temps.filter (fun p => decide (p.1 ≠ t)) }

/-- Go to the next line. -/
def HostAgent.advance (h : HostAgent) : HostAgent := { h with line := h.line + 1 }

/-- The line a label stands at. Where several lines carry the label, the first of them: R81 does not say which
(DESIGN CHOICE, log entry 6). -/
def Script.find (p : Script) (l : Label) : Option Nat := p.findIdx? (fun x => decide (x.label = some l))

/-- The value of an operand. -/
def HostAgent.value (h : HostAgent) : Operand → Word64
  | .imm v => v
  | .temp t => h.get t

/-- A host and the block it drives. -/
structure System where
  script : Script
  host : HostAgent
  block : State
deriving DecidableEq, Repr

/-- The host issues a transaction; an ERR response sets `terr` to 1 (R81). -/
def System.issue (y : System) (t : Transaction) : System × Response :=
  let r := (transact t y.block).2
  let h := { y.host with issued := t :: y.host.issued }
  ({ y with block := serve t y.block, host := if r = .err then h.set .terr 1 else h }, r)

/-- A branch, taken or not. None where the script has no such label. -/
def System.branch (y : System) (taken : Bool) (l : Label) : Option System :=
  if taken = true then (y.script.find l).map fun n => { y with host := { y.host with line := n } }
  else some { y with host := y.host.advance }

/-- One statement of the host (R81). None where the host has no step: it has halted, or the script has no line or no
label where it should go. -/
def System.hostStep (y : System) : Option System :=
  if y.host.halted = true then none
  else
    match y.script[y.host.line]? with
    | none => none
    | some x =>
      match x.stmt with
      | .wr r v =>
        let y1 := (y.issue { kind := .write, off := r.offset, size := .eight, wdata := y.host.value v }).1
        some { y1 with host := y1.host.advance }
      | .rd t r =>
        let a := y.issue { kind := .read, off := r.offset, size := .eight, wdata := 0 }
        some { a.1 with host := (a.1.host.set t a.2.rdata).advance }
      | .bbs t bit l => y.branch ((y.host.get t).getLsbD bit.val) l
      | .bbc t bit l => y.branch (!(y.host.get t).getLsbD bit.val) l
      | .b l => y.branch true l
      | .mov d t => some { y with host := (y.host.set d (y.host.get t)).advance }
      | .halt => some { y with host := { y.host with halted := true } }

/-- Which agent of a system moves next (00_scope.md R5). -/
inductive Turn where
  | host | unit | reset
deriving DecidableEq, Repr

/-- One step of a system. The block's own part is a step of `unitTurn`, `serve` or `resetBlock`, as in `step`. -/
def System.move (y : System) (a : Turn) : Option System :=
  match a with
  | .host => y.hostStep
  | .unit =>
    match unitTurn y.block with
    | .next s => some { y with block := s }
    | .fault _ => none
    | .refused _ => none
  | .reset => some { y with block := resetBlock y.block }

/-- A run of a system under a schedule, as long as each agent can move. -/
def System.run (y : System) : List Turn → Option System
  | [] => some y
  | a :: rest =>
    match y.move a with
    | some y1 => y1.run rest
    | none => none

end Sys2Proof.Machine
end

