-- ==== Sys2Proof/Safety.lean ====
section
/-! DEFINITION. What claims are stated with: the invariants of 10_state.md R42, the reference operators of
00_scope.md R10, and the end state of a command. -/

namespace Sys2Proof

/-- The reference operators, bit by bit (00_scope.md R10). -/
def Op.native (op : Op) {w : Nat} (a b : BitVec w) : BitVec w :=
  match op with
  | .xor => a ^^^ b
  | .and => a &&& b
  | .or => a ||| b

/-- The plane operations over the natural numbers, from a plane sum `s` and its plane AND `a`
(41_bitplane_datapath.md R117 to R119, R121). -/
def Op.planeNat (op : Op) (s a : Nat) : Nat :=
  match op with
  | .xor => s - 2 * a
  | .and => a
  | .or => s - a

namespace Machine

/-- The native result of a command on the low `n` bytes of two words, zero-extended (40_command_execution.md R98). -/
def nativeResult (op : Op) (n : Nat) (a b : Word64) : Word64 :=
  (op.native (a.setWidth (8 * n)) (b.setWidth (8 * n))).setWidth 64

/-- The state after a command with word `c` has run from its CMD write to its completion and left result `r`
(43_byte_commands.md R160, 44_word_commands.md R181). Every field not named keeps its value. -/
def State.ended (s : State) (c r : Word64) : State :=
  { s with
    lc := c, la := s.opa, lb := s.opb, k := 0, acc := r, res := r
    status := { busy := false, done := true, err := false, ecode := .none } }

/-- The state after a rejection with code `e` (60_exceptions.md R212). Every field not named keeps its value. -/
def State.rejected (s : State) (e : ErrCode) : State :=
  { s with status := { s.status with err := true, ecode := e } }

/-- A command with word `c` and result `r` meets its rule: on an idle block it runs to its end state, on a busy block
it is rejected with code 5. `avail` says when the block implements it; on an idle block without it the command is
rejected with code 4. -/
def MeetsRule (i : Instr) (c : Word64) (avail : State → Bool) (r : State → Word64) : Prop :=
  encode i = c ∧
  (∀ s, s.status.busy = false → avail s = true → exec i s = .next (s.ended c (r s))) ∧
  (∀ s, s.status.busy = true → exec i s = .next (s.rejected .busy)) ∧
  (∀ s, s.status.busy = false → avail s = false → exec i s = .next (s.rejected .noLut))

/-- The transaction `W 0x10 c`: a CMD write (30_encoding.md R83, 20_memory.md R55). -/
abbrev cmdWrite (c : Word64) : Transaction := { kind := .write, off := 0x10#6, size := .eight, wdata := c }

/-- The transaction `R off` (R83). -/
abbrev regRead (off : BitVec 6) : Transaction := { kind := .read, off := off, size := .eight, wdata := 0 }

/-- The next event of `s` is a CMD write of `c` by the host: at the window offset, at the bus address, or together with
its unit steps (20_memory.md R50, R55). -/
def State.nextIssues (s : State) (c : Word64) : Prop :=
  ∃ rest, s.inputs = .command c :: rest ∨
    s.inputs = .txn { kind := .write, off := 0x10#6, size := .eight, wdata := c } :: rest ∨
    ∃ addr, windowOffset s.params.base addr = some 0x10#6 ∧
      s.inputs = .bus { kind := .write, addr := addr, size := .eight, wdata := c } :: rest

/-- The next event of `s` is a reset. -/
def State.nextResets (s : State) : Prop := ∃ rest, s.inputs = .reset :: rest

/-- The next event of `s` is the unit's: its turn, or nothing pending. -/
def State.nextIsUnit (s : State) : Prop := s.inputs = [] ∨ ∃ rest, s.inputs = .unitTurn :: rest

/-- The invariants of 10_state.md R42, with the LUT clause that acceptance adds to (c) (40_command_execution.md R90,
R97). -/
structure BlockInv (s : State) : Prop where
  /-- (a) -/
  notBusyAndDone : ¬ (s.status.busy = true ∧ s.status.done = true)
  /-- (b) -/
  errIffCode : s.status.err = true ↔ s.status.ecode ≠ .none
  /-- (c): LC holds a word the block could accept -/
  legalLatched : legalWord s.params.hasLut s.lc = true
  /-- (d) -/
  counterInRange : s.status.busy = true → s.k.val < nbytes (cmdW s.lc)
  /-- (e) -/
  counterIdle : s.status.busy = false → s.k = 0
  /-- (f): the bits of ACC from 8K up are 0 -/
  accBounded : s.status.busy = true → s.acc.toNat < 2 ^ (8 * s.k.val)
  /-- (g): the bits of RES above the command's width are 0 -/
  resBounded : s.status.done = true → s.res.toNat < 2 ^ (8 * nbytes (cmdW s.lc))

/-- The data path of the command that LC holds has worked on the latched operands: while the command is in flight ACC
holds the native results of its first K bytes, most significant first (40_command_execution.md R93, R94), and once it
is done RES holds its whole native result (10_state.md R27, 40_command_execution.md R98). -/
structure ResultInv (s : State) : Prop where
  partialResult : ∀ op, opOfBits (cmdOp s.lc) = some op → s.status.busy = true →
    s.acc = serialBytes (fun a b => op.native a b) (nbytes (cmdW s.lc)) s.la s.lb s.k.val
  finalResult : ∀ op, opOfBits (cmdOp s.lc) = some op → s.status.done = true →
    s.res = nativeResult op (nbytes (cmdW s.lc)) s.la s.lb

/-- Every step from `s` has a next state: no fault and no refusal. -/
def Continues (s : State) : Prop := ∃ t, step s = .next t

/-- `n` steps of the block, stopping at the first that has no next state. -/
def runSteps : Nat → State → Result
  | 0, s => .next s
  | n + 1, s =>
    match step s with
    | .next t => runSteps n t
    | .fault r => .fault r
    | .refused r => .refused r

/-- The next event of `s` is a CMD write that is accepted (40_command_execution.md R90). -/
def State.nextAccepts (s : State) : Prop :=
  s.status.busy = false ∧ ∃ c, s.nextIssues c ∧ legalWord s.params.hasLut c = true

/-- None of the next `n` steps of `s` accepts a CMD write or is a reset (20_memory.md R64). -/
def State.undisturbedFor (s : State) (n : Nat) : Prop :=
  ∀ m u, m < n → runSteps m s = .next u → ¬ u.nextAccepts ∧ ¬ u.nextResets

end Machine

end Sys2Proof
end

