-- ==== Sys2Proof/Certificates/Slice0/Obligations.lean ====
section
/-! DEFINITION. What is claimed of the model. Each statement's docstring names the rules of spec/ it formalises, or
what it rests on. Statements about every state hold for both values of HAS_LUT, since the parameters are in the
state (log entry 1). -/

open Sys2Proof Sys2Proof.Machine

/-! ## Reset -/

/-- R240: reset puts every register and hidden element at 0 in one step, from any state, a command in flight included.
The parameters, and so CAP and the LUT, are unaffected; the port's record is the model's own. -/
def Obligations.ResetClearsEveryRegister : Prop :=
  ∀ (s : State) (rest : List Event), s.inputs = .reset :: rest →
    step s = .next
      { params := s.params, opa := 0, opb := 0, res := 0, lc := 0, la := 0, lb := 0, k := 0, acc := 0
        status := { busy := false, done := false, err := false, ecode := .none }
        inputs := rest, answers := s.answers }

/-- R41, read through the port: after reset every register reads as the table says, for every parameter set, and the
hidden state is 0. `State.reset` is one of these states; its parameters are the model's choice (log entry 1). -/
def Obligations.ResetStateReadsAsTabled : Prop :=
  (∀ p : Params,
    readRegister 0x00#6 (State.resetWith p) = some 0 ∧
    readRegister 0x08#6 (State.resetWith p) = some 0 ∧
    readRegister 0x10#6 (State.resetWith p) = some 0 ∧
    readRegister 0x18#6 (State.resetWith p) = some 0 ∧
    readRegister 0x20#6 (State.resetWith p) = some 0 ∧
    readRegister 0x28#6 (State.resetWith p) = some (if p.hasLut = true then 0x10F#64 else 0x10E#64) ∧
    (State.resetWith p).la = 0 ∧ (State.resetWith p).lb = 0 ∧ (State.resetWith p).k = 0 ∧
    (State.resetWith p).acc = 0) ∧
  ∃ p : Params, State.reset = State.resetWith p

/-! ## Invariants -/

/-- R42 at reset, for every parameter set; and nothing has been computed yet. -/
def Obligations.InvariantsHoldAtReset : Prop :=
  ∀ p : Params, BlockInv (State.resetWith p) ∧ ResultInv (State.resetWith p)

/-- R42: every step keeps the invariants, from every state that meets them, whatever the port brings. -/
def Obligations.StepKeepsInvariant : Prop :=
  ∀ s t : State, BlockInv s → step s = .next t → BlockInv t

/-- R42: every state that a run from reset reaches, under every parameter set and every list of events from outside,
meets the invariants. -/
def Obligations.ReachableStatesMeetInvariant : Prop :=
  ∀ (p : Params) (es : List Event) (n : Nat) (t : State),
    runSteps n { State.resetWith p with inputs := es } = .next t → BlockInv t

/-- R27, R93, R94, R98: every step keeps the accumulator equal to the native results of the bytes done, and RES equal
to the native result of the command that LC holds once it is done. -/
def Obligations.StepKeepsResultInvariant : Prop :=
  ∀ s t : State, BlockInv s → ResultInv s → step s = .next t → ResultInv t

/-- R215, R99: from a state that meets the invariants every step has a next state. No command fails and no event
stops the block. -/
def Obligations.InvariantStatesNeverStop : Prop :=
  ∀ s : State, BlockInv s → Continues s

/-- HAS_LUT and BASE are parameters: no step changes them, so CAP is constant (R28) and the LUT stays present or
absent (R33). -/
def Obligations.ParametersNeverChange : Prop :=
  ∀ s t : State, step s = .next t → t.params = s.params ∧ capWord t.params = capWord s.params

/-! ## The command word -/

/-- R77: the opcode map. The 18 words, written out field by field (RSVD, V, W, OP), decode to their commands. -/
def Obligations.OpcodeMapDecodes : Prop :=
  decode (0#59 ++ 0b0#1 ++ 0b00#2 ++ 0b00#2) = .ok .xor8 ∧
  decode (0#59 ++ 0b0#1 ++ 0b00#2 ++ 0b01#2) = .ok .and8 ∧
  decode (0#59 ++ 0b0#1 ++ 0b00#2 ++ 0b10#2) = .ok .or8 ∧
  decode (0#59 ++ 0b0#1 ++ 0b10#2 ++ 0b00#2) = .ok .xor32 ∧
  decode (0#59 ++ 0b0#1 ++ 0b10#2 ++ 0b01#2) = .ok .and32 ∧
  decode (0#59 ++ 0b0#1 ++ 0b10#2 ++ 0b10#2) = .ok .or32 ∧
  decode (0#59 ++ 0b0#1 ++ 0b11#2 ++ 0b00#2) = .ok .xor64 ∧
  decode (0#59 ++ 0b0#1 ++ 0b11#2 ++ 0b01#2) = .ok .and64 ∧
  decode (0#59 ++ 0b0#1 ++ 0b11#2 ++ 0b10#2) = .ok .or64 ∧
  decode (0#59 ++ 0b1#1 ++ 0b00#2 ++ 0b00#2) = .ok .xor8l ∧
  decode (0#59 ++ 0b1#1 ++ 0b00#2 ++ 0b01#2) = .ok .and8l ∧
  decode (0#59 ++ 0b1#1 ++ 0b00#2 ++ 0b10#2) = .ok .or8l ∧
  decode (0#59 ++ 0b1#1 ++ 0b10#2 ++ 0b00#2) = .ok .xor32l ∧
  decode (0#59 ++ 0b1#1 ++ 0b10#2 ++ 0b01#2) = .ok .and32l ∧
  decode (0#59 ++ 0b1#1 ++ 0b10#2 ++ 0b10#2) = .ok .or32l ∧
  decode (0#59 ++ 0b1#1 ++ 0b11#2 ++ 0b00#2) = .ok .xor64l ∧
  decode (0#59 ++ 0b1#1 ++ 0b11#2 ++ 0b01#2) = .ok .and64l ∧
  decode (0#59 ++ 0b1#1 ++ 0b11#2 ++ 0b10#2) = .ok .or64l

/-- The 14 words of R78 that have no reserved bit and are no command, with their reasons. -/
def Obligations.IllegalLowWordsAreNamed : Prop :=
  (∀ c ∈ [0x03#64, 0x07#64, 0x0B#64, 0x0F#64, 0x13#64, 0x17#64, 0x1B#64, 0x1F#64], decode c = .error .badOp) ∧
  (∀ c ∈ [0x04#64, 0x05#64, 0x06#64, 0x14#64, 0x15#64, 0x16#64], decode c = .error .badWidth)

/-- Over all 2^64 words, decoding and encoding are each other's inverse: every command's word decodes to it, and a
word that decodes to a command is that command's one word (R70, R77, R78, R79). -/
def Obligations.DecodeIsInverseOfEncode : Prop :=
  ∀ (c : Word64) (i : Instr), decode c = .ok i ↔ encode i = c

/-- R75: a word is legal exactly when it is the word of one of the commands the block implements. -/
def Obligations.LegalWordsAreTheCommands : Prop :=
  ∀ (p : Params) (c : Word64),
    legalWord p.hasLut c = true ↔ ∃ i : Instr, i.wellFormed p = true ∧ encode i = c

/-- Every other word is refused by name, by the first of the word's own checks that fails (R71, R73, R74 and the
order of R211). -/
def Obligations.DecodeNamesFirstFailingCheck : Prop :=
  ∀ (c : Word64) (e : ErrCode), decode c = .error e ↔
    (cmdRsvd c ≠ 0#59 ∧ e = .rsvdBits) ∨
    (cmdRsvd c = 0#59 ∧ cmdOp c = 0b11#2 ∧ e = .badOp) ∨
    (cmdRsvd c = 0#59 ∧ cmdOp c ≠ 0b11#2 ∧ cmdW c = 0b01#2 ∧ e = .badWidth)

/-! ## The step -/

/-- When the next event is a command word that decodes, the step takes the event off the port, records the CMD
write's response OK(0), and is `exec` of the command; placing an opcode-table word as the next event makes the step
run it. A word that does not decode is issued as any CMD write is, and so rejected. This is the model's own choice
(log entry 3, DEDUCED): the spec has no fetch and no such event, and the atomic `.command` event and its placement by
`withFetchWord` are the model's way to run one command in one step. -/
def Obligations.StepRunsDecodedCommand : Prop :=
  (∀ (s : State) (c : Word64) (rest : List Event) (i : Instr),
    s.inputs = .command c :: rest → decode c = .ok i →
      step s = exec i { s with inputs := rest, answers := .ok 0 :: s.answers }) ∧
  (∀ (s : State) (i : Instr),
    step (s.withFetchWord 64 (encode i).toNat) = exec i { s with answers := .ok 0 :: s.answers }) ∧
  (∀ (s : State) (c : Word64) (rest : List Event) (e : ErrCode),
    s.inputs = .command c :: rest → decode c = .error e →
      step s = .next (issue c { s with inputs := rest, answers := .ok 0 :: s.answers }))

/-! ## The commands: result, flags, frame, rejection -/

/-- R161 to R163 with R160: the direct 8-bit commands. -/
def Obligations.DirectByteCommandsMeetRules : Prop :=
  MeetsRule .xor8 0x00#64 (fun _ => true) (fun s => nativeResult .xor 1 s.opa s.opb) ∧
  MeetsRule .and8 0x01#64 (fun _ => true) (fun s => nativeResult .and 1 s.opa s.opb) ∧
  MeetsRule .or8 0x02#64 (fun _ => true) (fun s => nativeResult .or 1 s.opa s.opb)

/-- R164 to R166 with R160: the LUT 8-bit commands. -/
def Obligations.LutByteCommandsMeetRules : Prop :=
  MeetsRule .xor8l 0x10#64 (fun s => s.params.hasLut) (fun s => nativeResult .xor 1 s.opa s.opb) ∧
  MeetsRule .and8l 0x11#64 (fun s => s.params.hasLut) (fun s => nativeResult .and 1 s.opa s.opb) ∧
  MeetsRule .or8l 0x12#64 (fun s => s.params.hasLut) (fun s => nativeResult .or 1 s.opa s.opb)

/-- R182 to R184 with R181: the direct 32-bit commands. -/
def Obligations.Direct32BitCommandsMeetRules : Prop :=
  MeetsRule .xor32 0x08#64 (fun _ => true) (fun s => nativeResult .xor 4 s.opa s.opb) ∧
  MeetsRule .and32 0x09#64 (fun _ => true) (fun s => nativeResult .and 4 s.opa s.opb) ∧
  MeetsRule .or32 0x0A#64 (fun _ => true) (fun s => nativeResult .or 4 s.opa s.opb)

/-- R185 to R187 with R181: the LUT 32-bit commands. -/
def Obligations.Lut32BitCommandsMeetRules : Prop :=
  MeetsRule .xor32l 0x18#64 (fun s => s.params.hasLut) (fun s => nativeResult .xor 4 s.opa s.opb) ∧
  MeetsRule .and32l 0x19#64 (fun s => s.params.hasLut) (fun s => nativeResult .and 4 s.opa s.opb) ∧
  MeetsRule .or32l 0x1A#64 (fun s => s.params.hasLut) (fun s => nativeResult .or 4 s.opa s.opb)

/-- R188 to R190 with R181: the direct 64-bit commands. -/
def Obligations.Direct64BitCommandsMeetRules : Prop :=
  MeetsRule .xor64 0x0C#64 (fun _ => true) (fun s => s.opa ^^^ s.opb) ∧
  MeetsRule .and64 0x0D#64 (fun _ => true) (fun s => s.opa &&& s.opb) ∧
  MeetsRule .or64 0x0E#64 (fun _ => true) (fun s => s.opa ||| s.opb)

/-- R191 to R193 with R181: the LUT 64-bit commands. -/
def Obligations.Lut64BitCommandsMeetRules : Prop :=
  MeetsRule .xor64l 0x1C#64 (fun s => s.params.hasLut) (fun s => s.opa ^^^ s.opb) ∧
  MeetsRule .and64l 0x1D#64 (fun s => s.params.hasLut) (fun s => s.opa &&& s.opb) ∧
  MeetsRule .or64l 0x1E#64 (fun s => s.params.hasLut) (fun s => s.opa ||| s.opb)

/-- The frame of every command (R90, R91, R95, R160, R181): the operands, the parameters and the port's lists are
unchanged, and RES, LC, LA, LB, K, ACC, BUSY and DONE are unchanged unless the command was accepted. -/
def Obligations.CommandsKeepTheirFrame : Prop :=
  ∀ (i : Instr) (s t : State), exec i s = .next t →
    t.opa = s.opa ∧ t.opb = s.opb ∧ t.params = s.params ∧ t.inputs = s.inputs ∧ t.answers = s.answers ∧
    ((s.status.busy = true ∨ i.wellFormed s.params = false) →
      t.res = s.res ∧ t.lc = s.lc ∧ t.la = s.la ∧ t.lb = s.lb ∧ t.k = s.k ∧ t.acc = s.acc ∧
      t.status.busy = s.status.busy ∧ t.status.done = s.status.done)

/-! ## Issue -/

/-- R90: on an idle block a CMD write of a legal word is accepted. The state after it, field by field; RES, OPA and OPB
keep their values. R55: the response is OK(0). -/
def Obligations.LegalCmdWriteIsAccepted : Prop :=
  ∀ (s : State) (c : Word64) (rest : List Event),
    s.inputs = .txn (cmdWrite c) :: rest →
    s.status.busy = false → legalWord s.params.hasLut c = true →
      step s = .next
        { s with
          lc := c, la := s.opa, lb := s.opb, k := 0, acc := 0
          status := { busy := true, done := false, err := false, ecode := .none }
          inputs := rest, answers := .ok 0 :: s.answers }

/-- R91, R211, R212: a CMD write that is not accepted records the code of the first failing check, in R211's order, and
changes nothing else. R55: the response is OK(0). -/
def Obligations.CmdWriteIsRejectedByFirstFailingCheck : Prop :=
  ∀ (s : State) (c : Word64) (rest : List Event) (e : ErrCode),
    s.inputs = .txn (cmdWrite c) :: rest →
    ((s.status.busy = true ∧ e = .busy) ∨
     (s.status.busy = false ∧ cmdRsvd c ≠ 0#59 ∧ e = .rsvdBits) ∨
     (s.status.busy = false ∧ cmdRsvd c = 0#59 ∧ cmdOp c = 0b11#2 ∧ e = .badOp) ∨
     (s.status.busy = false ∧ cmdRsvd c = 0#59 ∧ cmdOp c ≠ 0b11#2 ∧ cmdW c = 0b01#2 ∧ e = .badWidth) ∨
     (s.status.busy = false ∧ cmdRsvd c = 0#59 ∧ cmdOp c ≠ 0b11#2 ∧ cmdW c ≠ 0b01#2 ∧ cmdV c = 1#1 ∧
       s.params.hasLut = false ∧ e = .noLut)) →
      step s = .next
        { s with
          status := { busy := s.status.busy, done := s.status.done, err := true, ecode := e }
          inputs := rest, answers := .ok 0 :: s.answers }

/-- The codes of R210, as STATUS shows them. -/
def Obligations.ErrorCodesAsTabled : Prop :=
  ecodeBits .none = 0 ∧ ecodeBits .rsvdBits = 1 ∧ ecodeBits .badOp = 2 ∧ ecodeBits .badWidth = 3 ∧
  ecodeBits .noLut = 4 ∧ ecodeBits .busy = 5 ∧ ∀ e, (ecodeBits e).toNat < 6

/-! ## The register port -/

/-- R53: a legal read answers the register at its offset and changes no state of the block. STATUS reads as the sum
R53 writes; CAP as R28's two values. -/
def Obligations.LegalReadsAnswerTheRegister : Prop :=
  ∀ (s : State) (off : BitVec 6) (w v : Word64) (rest : List Event),
    s.inputs = .txn { kind := .read, off := off, size := .eight, wdata := w } :: rest →
    ((off = 0x00#6 ∧ v = s.opa) ∨ (off = 0x08#6 ∧ v = s.opb) ∨ (off = 0x10#6 ∧ v = s.lc) ∨
     (off = 0x18#6 ∧ v = s.res) ∨
     (off = 0x20#6 ∧ v.toNat = (ecodeBits s.status.ecode).toNat * 2 ^ 4 + s.status.err.toNat * 2 ^ 2 +
       s.status.done.toNat * 2 + s.status.busy.toNat) ∨
     (off = 0x28#6 ∧ v = if s.params.hasLut = true then 0x10F#64 else 0x10E#64)) →
      step s = .next { s with inputs := rest, answers := .ok v :: s.answers }

/-- R26: the fields of the STATUS word, bit by bit. -/
def Obligations.StatusWordLayout : Prop :=
  ∀ f : Status,
    f.toWord.getLsbD 0 = f.busy ∧ f.toWord.getLsbD 1 = f.done ∧ f.toWord.getLsbD 2 = f.err ∧
    f.toWord.getLsbD 3 = false ∧ f.toWord.extractLsb' 4 4 = ecodeBits f.ecode ∧ f.toWord.extractLsb' 8 56 = 0

/-- R28: the fields of the CAP word, bit by bit. -/
def Obligations.CapWordLayout : Prop :=
  ∀ p : Params,
    (capWord p).getLsbD 0 = p.hasLut ∧ (capWord p).getLsbD 1 = true ∧ (capWord p).getLsbD 2 = true ∧
    (capWord p).getLsbD 3 = true ∧ (capWord p).extractLsb' 4 4 = 0 ∧ (capWord p).extractLsb' 8 8 = 0x01 ∧
    (capWord p).extractLsb' 16 48 = 0

/-- R54: a legal write to OPA or OPB sets that register, in every state, and changes nothing else: not LA, not LB, not
the command in flight. -/
def Obligations.OperandWritesSetOneRegister : Prop :=
  ∀ (s : State) (v : Word64) (rest : List Event),
    (s.inputs = .txn { kind := .write, off := 0x00#6, size := .eight, wdata := v } :: rest →
      step s = .next { s with opa := v, inputs := rest, answers := .ok 0 :: s.answers }) ∧
    (s.inputs = .txn { kind := .write, off := 0x08#6, size := .eight, wdata := v } :: rest →
      step s = .next { s with opb := v, inputs := rest, answers := .ok 0 :: s.answers })

/-- R52, R56, R57, R60: a transaction of another size, at an offset not a multiple of 8 or above 0x28, or writing RES,
STATUS or CAP, answers ERR and changes no state of the block. -/
def Obligations.IllegalTransactionsOnlyAnswerErr : Prop :=
  ∀ (s : State) (t : Transaction) (rest : List Event), s.inputs = .txn t :: rest →
    (t.size ≠ .eight ∨ t.off.toNat % 8 ≠ 0 ∨ 0x28 < t.off.toNat ∨
      (t.kind = .write ∧ (t.off = 0x18#6 ∨ t.off = 0x20#6 ∨ t.off = 0x28#6))) →
      step s = .next { s with inputs := rest, answers := .err :: s.answers }

/-- R51: every transaction is answered by exactly one response, and by an ERR only where it is illegal (R52, R56). -/
def Obligations.EveryTransactionIsAnsweredOnce : Prop :=
  ∀ (s : State) (t : Transaction) (rest : List Event), s.inputs = .txn t :: rest →
    ∃ (u : State) (r : Response), step s = .next u ∧ u.inputs = rest ∧ u.answers = r :: s.answers ∧
      (r ≠ .err ↔ t.size = .eight ∧ t.off.toNat % 8 = 0 ∧ t.off.toNat ≤ 0x28 ∧
        (t.kind = .read ∨ t.off.toNat ≤ 0x10)) ∧
      (t.kind = .write → r.rdata = 0)

/-- R50: a bus address in the 64 bytes from BASE reaches the offset it lies at; any other never reaches the block. -/
def Obligations.BusAddressesReachTheWindow : Prop :=
  ∀ (s : State) (a : BusAccess) (rest : List Event), s.inputs = .bus a :: rest →
    (∀ off : BitVec 6, a.addr = s.params.base + off.toNat →
      step s = step
        { s with inputs := .txn { kind := a.kind, off := off, size := a.size, wdata := a.wdata } :: rest }) ∧
    (a.addr < s.params.base ∨ s.params.base + 64 ≤ a.addr → step s = .next { s with inputs := rest })

/-! ## The unit -/

/-- R93, R94, R95: one unit step of the command in flight, whole: the byte position, the result byte shifted into ACC
at the low end, and completion at the last byte. Every register not named keeps its value. The unit moves at its turn
and, with nothing pending, by itself. -/
def Obligations.UnitStepProcessesOneByte : Prop :=
  ∀ (s : State) (op : Op), BlockInv s → s.status.busy = true → s.nextIsUnit → opOfBits (cmdOp s.lc) = some op →
    let n := 2 ^ (cmdW s.lc).toNat
    let j := n - 1 - s.k.val
    let a : Byte := s.la.extractLsb' (8 * j) 8
    let b : Byte := s.lb.extractLsb' (8 * j) 8
    let r : Byte := byteOp op (if cmdV s.lc = 1#1 then .lut else .direct) a b
    let acc : Word64 := (s.acc <<< 8) ||| r.setWidth 64
    step s = .next
      (if s.k.val + 1 = n then
        { s with
          acc := acc, res := acc, k := 0, status := { s.status with busy := false, done := true }
          inputs := s.inputs.tail }
       else { s with acc := acc, k := s.k + 1, inputs := s.inputs.tail })

/-- R100: with BUSY = 0 and nothing from outside, no state changes, at the unit's turn or with nothing pending. -/
def Obligations.QuiescentBlockKeepsItsState : Prop :=
  ∀ s : State, s.status.busy = false → s.nextIsUnit → step s = .next { s with inputs := s.inputs.tail }

/-- R93, R64 (c): the unit never reads OPA or OPB. Whatever they are changed to, its turn does the same to
everything else, and leaves them as they are. -/
def Obligations.UnitNeverReadsOperandRegisters : Prop :=
  ∀ (s t : State) (x y : Word64), s.nextIsUnit → step s = .next t →
    step { s with opa := x, opb := y } = .next { t with opa := x, opb := y }

/-- R99: from acceptance a command takes exactly NBYTES(W) unit steps: BUSY before the last of them, done with the
native result after it. -/
def Obligations.AcceptedCommandEndsAfterItsBytes : Prop :=
  ∀ (s : State) (c : Word64) (op : Op),
    s.inputs = [.txn (cmdWrite c)] →
    s.status.busy = false → legalWord s.params.hasLut c = true → opOfBits (cmdOp c) = some op →
      (∀ m, m < nbytes (cmdW c) → ∃ t, runSteps (m + 1) s = .next t ∧ t.status.busy = true ∧ t.res = s.res) ∧
      ∃ t, runSteps (nbytes (cmdW c) + 1) s = .next t ∧ t.status.busy = false ∧ t.status.done = true ∧
        t.lc = c ∧ t.res = nativeResult op (nbytes (cmdW c)) s.opa s.opb

/-- R91, R96, R99: while a command is in flight, no transaction and no bus access changes LC, LA, LB, K, ACC, RES, BUSY
or DONE. -/
def Obligations.TransactionsLeaveCommandInFlightAlone : Prop :=
  ∀ (s t : State) (rest : List Event), s.status.busy = true →
    ((∃ x, s.inputs = .txn x :: rest) ∨ (∃ a, s.inputs = .bus a :: rest)) → step s = .next t →
      t.lc = s.lc ∧ t.la = s.la ∧ t.lb = s.lb ∧ t.k = s.k ∧ t.acc = s.acc ∧ t.res = s.res ∧
      t.status.busy = true ∧ t.status.done = s.status.done

/-- R96, R98: the result does not depend on how the unit steps interleave with transactions. From a state with a
command in flight, under any list of transactions, bus accesses and unit turns that gives the unit exactly the turns
it still needs, the last event being the last of them, the command is done with the native result of its latched
operands. -/
def Obligations.ResultIndependentOfInterleaving : Prop :=
  ∀ (s : State) (op : Op) (es : List Event), BlockInv s → ResultInv s → s.status.busy = true →
    opOfBits (cmdOp s.lc) = some op →
    (∀ e ∈ es, (∃ x, e = .txn x) ∨ (∃ a, e = .bus a) ∨ e = .unitTurn) →
    s.k.val + es.count .unitTurn + 1 = nbytes (cmdW s.lc) →
    s.inputs = es ++ [.unitTurn] →
      ∃ t, runSteps (es.length + 1) s = .next t ∧ t.status.busy = false ∧ t.status.done = true ∧
        t.lc = s.lc ∧ t.la = s.la ∧ t.lb = s.lb ∧ t.inputs = [] ∧
        t.res = nativeResult op (nbytes (cmdW s.lc)) s.la s.lb

/-- R96: the command that runs as one atomic step (the model's event, log entry 3) is the same as its CMD write followed
by NBYTES(W) unit steps, for an accepted word, and the same as its CMD write alone for a rejected one. -/
def Obligations.AtomicCommandRefinesUnitSteps : Prop :=
  ∀ (s : State) (c : Word64) (rest : List Event),
    (s.status.busy = false → legalWord s.params.hasLut c = true →
      runSteps 1 { s with inputs := .command c :: rest } =
      runSteps (1 + nbytes (cmdW c))
        { s with inputs := .txn (cmdWrite c) :: (List.replicate (nbytes (cmdW c)) Event.unitTurn ++ rest) }) ∧
    (s.status.busy = true ∨ legalWord s.params.hasLut c = false →
      runSteps 1 { s with inputs := .command c :: rest } =
      runSteps 1 { s with inputs := .txn (cmdWrite c) :: rest })

/-! ## Who writes what -/

/-- R25: RES changes only at reset or at a completion, as a whole, in the step that leaves BUSY = 0 and DONE = 1. A
completion is the last unit step of the command in flight, or the end of a command that an idle block accepts and runs
as one atomic step (log entry 3). -/
def Obligations.OnlyCompletionWritesRes : Prop :=
  ∀ s t : State, step s = .next t → t.res ≠ s.res →
    s.nextResets ∨
    (t.status.busy = false ∧ t.status.done = true ∧ t.res = t.acc ∧
      ((s.status.busy = true ∧ s.nextIsUnit ∧ s.k.val + 1 = nbytes (cmdW s.lc) ∧ t.lc = s.lc) ∨
       (s.status.busy = false ∧ ∃ c rest, s.inputs = .command c :: rest ∧
         legalWord s.params.hasLut c = true ∧ t.lc = c)))

/-- R27: BUSY and DONE change only by acceptance, by completion (or both in one atomic step), or by reset. -/
def Obligations.OnlyCommandsWriteBusyAndDone : Prop :=
  ∀ s t : State, step s = .next t →
    t.status.busy ≠ s.status.busy ∨ t.status.done ≠ s.status.done →
      s.nextResets ∨
      (s.status.busy = false ∧ ∃ c, s.nextIssues c ∧ legalWord s.params.hasLut c = true ∧ t.lc = c ∧
        t.status.done = !t.status.busy) ∨
      (s.status.busy = true ∧ s.nextIsUnit ∧ t.status.busy = false ∧ t.status.done = true)

/-- R29, R212: ERR and ECODE change only at a CMD write or at reset. In particular completion and bus errors leave
them. -/
def Obligations.OnlyCmdWritesSetErrAndEcode : Prop :=
  ∀ s t : State, step s = .next t →
    t.status.err ≠ s.status.err ∨ t.status.ecode ≠ s.status.ecode → s.nextResets ∨ ∃ c, s.nextIssues c

/-- R35, R36: LA, LB and LC change only at an acceptance, where they take OPA, OPB and the accepted word, or at reset.
A command in flight keeps them. -/
def Obligations.OnlyAcceptanceLatches : Prop :=
  ∀ s t : State, step s = .next t →
    t.la ≠ s.la ∨ t.lb ≠ s.lb ∨ t.lc ≠ s.lc →
      s.nextResets ∨
      (s.status.busy = false ∧ s.nextIssues t.lc ∧ legalWord s.params.hasLut t.lc = true ∧
        t.la = s.opa ∧ t.lb = s.opb)

/-- R64 (a), with (c): from a state in which a command has been accepted (in flight or done), let `n` steps pass without
an accepted CMD write and without reset, then let a STATUS read answer BUSY = 0, then let `m` more such steps pass.
A RES read then returns the native result of that command on its latched operands. The steps may be anything else:
reads, operand writes, rejected CMD writes, bus errors, unit turns. -/
def Obligations.PolledResultIsTheCommandsResult : Prop :=
  ∀ (s s1 s2 s3 s4 : State) (op : Op) (n m : Nat) (v w : Word64), BlockInv s → ResultInv s →
    s.status.busy = true ∨ s.status.done = true → opOfBits (cmdOp s.lc) = some op →
    s.undisturbedFor n → runSteps n s = .next s1 →
    (∃ rest, s1.inputs = .txn (regRead 0x20#6) :: rest) → step s1 = .next s2 →
    s2.answers = .ok v :: s1.answers → v.getLsbD 0 = false →
    s2.undisturbedFor m → runSteps m s2 = .next s3 →
    (∃ rest, s3.inputs = .txn (regRead 0x18#6) :: rest) → step s3 = .next s4 →
    s4.answers = .ok w :: s3.answers →
      w = nativeResult op (nbytes (cmdW s.lc)) s.la s.lb ∧ v.getLsbD 1 = true ∧ s4.lc = s.lc

/-! ## The datapath -/

/-- R111 to R113, R115: extraction bit by bit, the two parts of a byte in place, no borrow, and exact recombination. -/
def Obligations.ByteSplitsIntoPlanes : Prop :=
  ∀ x : Byte,
    (∀ i, i < 4 → (extract x).getLsbD (2 * i) = x.getLsbD (2 * i + 1) ∧
      (extract x).getLsbD (2 * i + 1) = false) ∧
    (extract x).toNat ≤ 0x55 ∧ evenPart x = x &&& 0xAA#8 ∧ (evenPart x).toNat ≤ x.toNat ∧
    oddPart x = x &&& 0x55#8 ∧ (oddPart x).toNat ≤ 0x55 ∧
    2 * (extract x).toNat + (oddPart x).toNat = x.toNat

/-- R116 to R119: for packed planes no carry leaves a lane, no subtraction borrows, and in every lane the plane
operations are AND, XOR and OR. -/
def Obligations.PlaneOperationsWorkLaneByLane : Prop :=
  ∀ P Q : Byte, P &&& 0xAA#8 = 0 → Q &&& 0xAA#8 = 0 →
    P.toNat + Q.toNat ≤ 0xAA ∧ (P + Q).toNat = P.toNat + Q.toNat ∧
    2 * (planeAnd extract P Q).toNat ≤ (P + Q).toNat ∧
    planeAnd extract P Q &&& 0xAA#8 = 0 ∧ planeXor extract P Q &&& 0xAA#8 = 0 ∧
    planeOr extract P Q &&& 0xAA#8 = 0 ∧
    ∀ i, i < 4 →
      (P + Q).getLsbD (2 * i) = (P.getLsbD (2 * i) ^^ Q.getLsbD (2 * i)) ∧
      (P + Q).getLsbD (2 * i + 1) = (P.getLsbD (2 * i) && Q.getLsbD (2 * i)) ∧
      (planeAnd extract P Q).getLsbD (2 * i) = (P.getLsbD (2 * i) && Q.getLsbD (2 * i)) ∧
      (planeXor extract P Q).getLsbD (2 * i) = (P.getLsbD (2 * i) ^^ Q.getLsbD (2 * i)) ∧
      (planeOr extract P Q).getLsbD (2 * i) = (P.getLsbD (2 * i) || Q.getLsbD (2 * i))

/-- R121: every adder of the datapath adds exactly and every subtractor subtracts exactly, so computing over the
natural numbers gives the same byte. -/
def Obligations.DatapathNeverCarriesOrBorrows : Prop :=
  ∀ (op : Op) (a b : Byte),
    let ea := (extract a).toNat
    let eb := (extract b).toNat
    let oa := a.toNat - 2 * ea
    let ob := b.toNat - 2 * eb
    let se := ea + eb
    let so := oa + ob
    let ae := (extract (BitVec.ofNat 8 se)).toNat
    let ao := (extract (BitVec.ofNat 8 so)).toNat
    let re := op.planeNat se ae
    let ro := op.planeNat so ao
    2 * ea ≤ a.toNat ∧ 2 * eb ≤ b.toNat ∧ ea ≤ 0x55 ∧ eb ≤ 0x55 ∧ oa ≤ 0x55 ∧ ob ≤ 0x55 ∧
    se ≤ 0xAA ∧ so ≤ 0xAA ∧ ae ≤ 0x55 ∧ ao ≤ 0x55 ∧ 2 * ae ≤ se ∧ 2 * ao ≤ so ∧ re ≤ 0x55 ∧ ro ≤ 0x55 ∧
    (byteOpDirect op a b).toNat = ro + 2 * re

/-- R122: the direct byte primitive is the native operator, for every operation and every pair of bytes. -/
def Obligations.DirectBytePrimitiveIsNative : Prop :=
  ∀ (op : Op) (a b : Byte), byteOpDirect op a b = op.native a b

/-- R140: the LUT has 256 entries, and every entry is the extraction of its index. -/
def Obligations.LutHoldsTheExtraction : Prop :=
  lutTable.length = 256 ∧ ∀ x : Byte, lutTable[x.toNat]? = some ((x &&& 0xAA#8) >>> 1)

/-- R144: the LUT byte primitive equals the direct one. -/
def Obligations.LutBytePrimitiveEqualsDirect : Prop :=
  ∀ (op : Op) (a b : Byte), byteOpLut op a b = byteOpDirect op a b

/-- R180: each byte of the word function's result is the byte primitive of the operands' bytes at that position, for
any byte primitive, and the bits above the width are 0. -/
def Obligations.WordFunctionIsBytewise : Prop :=
  ∀ (f : Byte → Byte → Byte) (n : Nat) (a b : Word64), n = 4 ∨ n = 8 →
    (∀ j, j < n → byteAt (wordOp f n a b) j = f (byteAt a j) (byteAt b j)) ∧
    (wordOp f n a b).toNat < 2 ^ (8 * n)

/-- R98: at every legal width and in both variants, the word function is the native operator on the operands' low
bits, zero-extended. -/
def Obligations.WordFunctionIsNative : Prop :=
  ∀ (op : Op) (v : Variant) (w : Width) (a b : Word64),
    wordOp (byteOp op v) (widthBytes w) a b = nativeResult op (widthBytes w) a b

/-! ## The reference clock -/

/-- R252, R251: in the reference implementation, with the CMD write in one cycle and no transaction after it, a
command is busy after each of the following cycles but the last of its NBYTES(W), and complete after that one. -/
def Obligations.ReferenceLatencies : Prop :=
  (latency .xor8 = 1 ∧ latency .xor32 = 4 ∧ latency .xor64 = 8 ∧
    ∀ i : Instr, latency i = widthBytes i.width) ∧
  ∀ (s : State) (i : Instr) (m : Nat), s.status.busy = false → i.wellFormed s.params = true →
    m ≤ latency i →
    s.inputs = clockEvents ({ rst := false, txn := some (cmdWrite (encode i)) } :: List.replicate m idleCycle) →
      ∃ t, runSteps (m + 2) s = .next t ∧ t.inputs = [] ∧ (t.status.busy = true ↔ m < latency i) ∧
        (t.status.done = true ↔ m = latency i)

/-- R65, R217: in the cycle of a command's last unit step, completion comes before the transaction, whatever the
transaction is: the two steps carry it out on the completed block `u`. So a STATUS read sees BUSY = 0, and a CMD write of
a legal word is accepted. Reset takes precedence over both. -/
def Obligations.SameCycleOrder : Prop :=
  (∀ (s : State) (x : Transaction) (rest : List Event),
    BlockInv s → s.status.busy = true → s.k.val + 1 = nbytes (cmdW s.lc) →
    s.inputs = cycleEvents { rst := false, txn := some x } ++ rest →
      ∃ u, unitTurn { s with inputs := rest } = .next u ∧
        u.status.busy = false ∧ u.status.done = true ∧ u.res = u.acc ∧
        runSteps 2 s = .next (serve x u) ∧
        (x = regRead 0x20#6 → ∃ v, serve x u = { u with answers := .ok v :: s.answers } ∧
          v.getLsbD 0 = false ∧ v.getLsbD 1 = true) ∧
        (∀ c, x = cmdWrite c → legalWord s.params.hasLut c = true →
          (serve x u).status.busy = true ∧ (serve x u).status.done = false ∧ (serve x u).lc = c ∧
          (serve x u).la = s.opa ∧ (serve x u).lb = s.opb ∧ (serve x u).res = u.res)) ∧
  (∀ (s : State) (x : Option Transaction) (rest : List Event),
    s.inputs = cycleEvents { rst := true, txn := x } ++ rest →
      step s = .next { State.resetWith s.params with inputs := rest, answers := s.answers })

/-! ## The host notation -/

/-- R81: `rd` of a register puts the register's value into the temporary and leaves `terr` alone, since such a read
never answers ERR; the block is as after the one transaction. -/
def Obligations.HostReadTakesTheResponse : Prop :=
  ∀ (y : System) (l : Option Label) (n : Nat) (r : RegName), y.host.halted = false →
    y.script[y.host.line]? = some { label := l, stmt := .rd (.t n) r } →
      ∃ z, y.hostStep = some z ∧
        z.block = serve (regRead r.offset) y.block ∧
        some (z.host.get (.t n)) = readRegister r.offset y.block ∧
        z.host.get .terr = y.host.get .terr ∧ z.host.line = y.host.line + 1 ∧ z.script = y.script

/-- R81, R56: `wr` to a read-only register sets `terr` to 1 and leaves the block's registers as they were. -/
def Obligations.HostWriteToReadOnlySetsTerr : Prop :=
  ∀ (y : System) (l : Option Label) (r : RegName) (v : Operand), y.host.halted = false →
    y.script[y.host.line]? = some { label := l, stmt := .wr r v } → r = .res ∨ r = .status ∨ r = .cap →
      ∃ z, y.hostStep = some z ∧ z.host.get .terr = 1 ∧
        z.block = { y.block with answers := .err :: y.block.answers } ∧ z.host.line = y.host.line + 1

/-- R82, R99: `poll` ends, under every schedule of the host and the unit that gives the unit the turns the command in
flight still needs. The host stands at the STATUS read of a `poll`, on a block that meets the invariants. However the
turns interleave, and however often the host reads BUSY = 1 and branches back, the host has left the poll at some point
of the schedule, or within three more of its own statements, with BUSY = 0 in `tS` and in the block. -/
def Obligations.PollEnds : Prop :=
  ∀ (y : System) (fresh : Label) (turns : List Turn), BlockInv y.block → y.host.halted = false →
    y.script[y.host.line]? = (Script.poll fresh)[0]? →
    y.script[y.host.line + 1]? = (Script.poll fresh)[1]? →
    y.script.find fresh = some y.host.line →
    (∀ a ∈ turns, a = .host ∨ a = .unit) →
    (y.block.status.busy = true → nbytes (cmdW y.block.lc) ≤ y.block.k.val + turns.count .unit) →
      ∃ done left z, turns ++ [.host, .host, .host] = done ++ left ∧ y.run done = some z ∧
        z.host.line = y.host.line + 2 ∧ (z.host.get .tS).getLsbD 0 = false ∧ z.block.status.busy = false ∧
        z.script = y.script
end

