-- ==== Sys2Proof/Laws/Decode.lean ====
section
/-! SUPPORT. What the field tables and the decoder can answer. -/

namespace Sys2Proof.Laws

theorem opOfBits_eq_none_iff (b : BitVec 2) : opOfBits b = none ↔ b = 0b11#2 := by
  revert b; decide

theorem widthOfBits_eq_none_iff (b : BitVec 2) : widthOfBits b = none ↔ b = 0b01#2 := by
  revert b; decide

theorem variantOfBit_eq_lut_iff (b : BitVec 1) : variantOfBit b = .lut ↔ b = 1#1 := by
  revert b; decide

theorem bit_ne_one_iff (b : BitVec 1) : b = 0#1 ↔ ¬ b = 1#1 := by
  revert b; decide

@[simp] theorem op_instrOf (v : Variant) (w : Width) (o : Op) : (instrOf v w o).op = o := by
  cases v <;> cases w <;> cases o <;> rfl

@[simp] theorem width_instrOf (v : Variant) (w : Width) (o : Op) : (instrOf v w o).width = w := by
  cases v <;> cases w <;> cases o <;> rfl

@[simp] theorem variant_instrOf (v : Variant) (w : Width) (o : Op) : (instrOf v w o).variant = v := by
  cases v <;> cases w <;> cases o <;> rfl

/-- A command is implemented unless it is an L command in a block without the LUT. -/
theorem wellFormed_iff (p : Params) (i : Instr) :
    i.wellFormed p = true ↔ (i.variant = .lut → p.hasLut = true) := by
  cases i <;> simp [Instr.wellFormed, Instr.variant]

/-- Everything a successful decoding says of the word's fields. -/
theorem decode_ok_fields {c : Word64} {i : Instr} (h : decode c = .ok i) :
    cmdRsvd c = 0#59 ∧ opOfBits (cmdOp c) = some i.op ∧ widthOfBits (cmdW c) = some i.width ∧
      variantOfBit (cmdV c) = i.variant := by
  unfold decode at h
  split at h
  · cases h
  · rename_i hr
    split at h
    · cases h
    · rename_i o ho
      split at h
      · cases h
      · rename_i w hw
        cases h
        exact ⟨by simpa using hr, by simpa using ho, by simpa using hw, by simp⟩

/-- What a failed decoding says of the word: the first failing check of 60_exceptions.md R211 that the word alone
can fail. -/
theorem decode_error_fields {c : Word64} {e : ErrCode} (h : decode c = .error e) :
    (e = .rsvdBits ∧ cmdRsvd c ≠ 0#59) ∨
    (e = .badOp ∧ cmdRsvd c = 0#59 ∧ cmdOp c = 0b11#2) ∨
    (e = .badWidth ∧ cmdRsvd c = 0#59 ∧ cmdOp c ≠ 0b11#2 ∧ cmdW c = 0b01#2) := by
  unfold decode at h
  split at h
  · rename_i hr
    cases h
    exact .inl ⟨rfl, hr⟩
  · rename_i hr
    have hr0 : cmdRsvd c = 0#59 := by simpa using hr
    split at h
    · rename_i ho
      cases h
      exact .inr (.inl ⟨rfl, hr0, (opOfBits_eq_none_iff _).1 ho⟩)
    · rename_i o ho
      split at h
      · rename_i hw
        cases h
        refine .inr (.inr ⟨rfl, hr0, fun h3 => ?_, (widthOfBits_eq_none_iff _).1 hw⟩)
        rw [(opOfBits_eq_none_iff _).2 h3] at ho
        cases ho
      · cases h

/-- The four conditions of a legal word (30_encoding.md R75). -/
theorem legalWord_iff (hasLut : Bool) (c : Word64) :
    legalWord hasLut c = true ↔
      cmdRsvd c = 0#59 ∧ cmdOp c ≠ 0b11#2 ∧ cmdW c ≠ 0b01#2 ∧ (cmdV c = 0#1 ∨ hasLut = true) := by
  simp [legalWord, and_assoc]

end Sys2Proof.Laws
end

