-- ==== Sys2Proof/Laws/PerInstr.lean ====
section
/-! SUPPORT. One lemma per command: the fields of its command word are those of its row of 30_encoding.md R77. -/

namespace Sys2Proof.Laws.EncodedFields

/-- The word of a command has no reserved bit, and its OP, W and V fields select the command's operation, width and
variant (R70 to R74, R77). -/
abbrev Statement (i : Instr) : Prop :=
  cmdRsvd (encode i) = 0#59 ∧ opOfBits (cmdOp (encode i)) = some i.op ∧
    widthOfBits (cmdW (encode i)) = some i.width ∧ variantOfBit (cmdV (encode i)) = i.variant

theorem xor8 : Statement .xor8 := by decide
theorem and8 : Statement .and8 := by decide
theorem or8 : Statement .or8 := by decide
theorem xor32 : Statement .xor32 := by decide
theorem and32 : Statement .and32 := by decide
theorem or32 : Statement .or32 := by decide
theorem xor64 : Statement .xor64 := by decide
theorem and64 : Statement .and64 := by decide
theorem or64 : Statement .or64 := by decide
theorem xor8l : Statement .xor8l := by decide
theorem and8l : Statement .and8l := by decide
theorem or8l : Statement .or8l := by decide
theorem xor32l : Statement .xor32l := by decide
theorem and32l : Statement .and32l := by decide
theorem or32l : Statement .or32l := by decide
theorem xor64l : Statement .xor64l := by decide
theorem and64l : Statement .and64l := by decide
theorem or64l : Statement .or64l := by decide

end Sys2Proof.Laws.EncodedFields
end

