-- ==== Sys2Proof/Laws/State.lean ====
section
/-! SUPPORT. One lemma per field per named update of the state. -/

namespace Sys2Proof.Laws

open Sys2Proof.Machine

@[simp] theorem accept_params (c : Word64) (s : State) : (accept c s).params = s.params := rfl
@[simp] theorem accept_opa (c : Word64) (s : State) : (accept c s).opa = s.opa := rfl
@[simp] theorem accept_opb (c : Word64) (s : State) : (accept c s).opb = s.opb := rfl
@[simp] theorem accept_res (c : Word64) (s : State) : (accept c s).res = s.res := rfl
@[simp] theorem accept_lc (c : Word64) (s : State) : (accept c s).lc = c := rfl
@[simp] theorem accept_la (c : Word64) (s : State) : (accept c s).la = s.opa := rfl
@[simp] theorem accept_lb (c : Word64) (s : State) : (accept c s).lb = s.opb := rfl
@[simp] theorem accept_k (c : Word64) (s : State) : (accept c s).k = 0 := rfl
@[simp] theorem accept_acc (c : Word64) (s : State) : (accept c s).acc = 0 := rfl
@[simp] theorem accept_status (c : Word64) (s : State) : (accept c s).status = { busy := true, done := false, err := false, ecode := .none } := rfl
@[simp] theorem accept_inputs (c : Word64) (s : State) : (accept c s).inputs = s.inputs := rfl
@[simp] theorem accept_answers (c : Word64) (s : State) : (accept c s).answers = s.answers := rfl

@[simp] theorem reject_params (e : ErrCode) (s : State) : (reject e s).params = s.params := rfl
@[simp] theorem reject_opa (e : ErrCode) (s : State) : (reject e s).opa = s.opa := rfl
@[simp] theorem reject_opb (e : ErrCode) (s : State) : (reject e s).opb = s.opb := rfl
@[simp] theorem reject_res (e : ErrCode) (s : State) : (reject e s).res = s.res := rfl
@[simp] theorem reject_lc (e : ErrCode) (s : State) : (reject e s).lc = s.lc := rfl
@[simp] theorem reject_la (e : ErrCode) (s : State) : (reject e s).la = s.la := rfl
@[simp] theorem reject_lb (e : ErrCode) (s : State) : (reject e s).lb = s.lb := rfl
@[simp] theorem reject_k (e : ErrCode) (s : State) : (reject e s).k = s.k := rfl
@[simp] theorem reject_acc (e : ErrCode) (s : State) : (reject e s).acc = s.acc := rfl
@[simp] theorem reject_status (e : ErrCode) (s : State) : (reject e s).status = { s.status with err := true, ecode := e } := rfl
@[simp] theorem reject_inputs (e : ErrCode) (s : State) : (reject e s).inputs = s.inputs := rfl
@[simp] theorem reject_answers (e : ErrCode) (s : State) : (reject e s).answers = s.answers := rfl

@[simp] theorem complete_params (s : State) : (complete s).params = s.params := rfl
@[simp] theorem complete_opa (s : State) : (complete s).opa = s.opa := rfl
@[simp] theorem complete_opb (s : State) : (complete s).opb = s.opb := rfl
@[simp] theorem complete_res (s : State) : (complete s).res = s.acc := rfl
@[simp] theorem complete_lc (s : State) : (complete s).lc = s.lc := rfl
@[simp] theorem complete_la (s : State) : (complete s).la = s.la := rfl
@[simp] theorem complete_lb (s : State) : (complete s).lb = s.lb := rfl
@[simp] theorem complete_k (s : State) : (complete s).k = 0 := rfl
@[simp] theorem complete_acc (s : State) : (complete s).acc = s.acc := rfl
@[simp] theorem complete_status (s : State) : (complete s).status = { s.status with busy := false, done := true } := rfl
@[simp] theorem complete_inputs (s : State) : (complete s).inputs = s.inputs := rfl
@[simp] theorem complete_answers (s : State) : (complete s).answers = s.answers := rfl

@[simp] theorem answer_params (r : Response) (s : State) : (answer r s).params = s.params := rfl
@[simp] theorem answer_opa (r : Response) (s : State) : (answer r s).opa = s.opa := rfl
@[simp] theorem answer_opb (r : Response) (s : State) : (answer r s).opb = s.opb := rfl
@[simp] theorem answer_res (r : Response) (s : State) : (answer r s).res = s.res := rfl
@[simp] theorem answer_lc (r : Response) (s : State) : (answer r s).lc = s.lc := rfl
@[simp] theorem answer_la (r : Response) (s : State) : (answer r s).la = s.la := rfl
@[simp] theorem answer_lb (r : Response) (s : State) : (answer r s).lb = s.lb := rfl
@[simp] theorem answer_k (r : Response) (s : State) : (answer r s).k = s.k := rfl
@[simp] theorem answer_acc (r : Response) (s : State) : (answer r s).acc = s.acc := rfl
@[simp] theorem answer_status (r : Response) (s : State) : (answer r s).status = s.status := rfl
@[simp] theorem answer_inputs (r : Response) (s : State) : (answer r s).inputs = s.inputs := rfl
@[simp] theorem answer_answers (r : Response) (s : State) : (answer r s).answers = r :: s.answers := rfl

@[simp] theorem resetBlock_params (s : State) : (resetBlock s).params = s.params := rfl
@[simp] theorem resetBlock_opa (s : State) : (resetBlock s).opa = 0 := rfl
@[simp] theorem resetBlock_opb (s : State) : (resetBlock s).opb = 0 := rfl
@[simp] theorem resetBlock_res (s : State) : (resetBlock s).res = 0 := rfl
@[simp] theorem resetBlock_lc (s : State) : (resetBlock s).lc = 0 := rfl
@[simp] theorem resetBlock_la (s : State) : (resetBlock s).la = 0 := rfl
@[simp] theorem resetBlock_lb (s : State) : (resetBlock s).lb = 0 := rfl
@[simp] theorem resetBlock_k (s : State) : (resetBlock s).k = 0 := rfl
@[simp] theorem resetBlock_acc (s : State) : (resetBlock s).acc = 0 := rfl
@[simp] theorem resetBlock_status (s : State) : (resetBlock s).status = { busy := false, done := false, err := false, ecode := .none } := rfl
@[simp] theorem resetBlock_inputs (s : State) : (resetBlock s).inputs = s.inputs := rfl
@[simp] theorem resetBlock_answers (s : State) : (resetBlock s).answers = s.answers := rfl

end Sys2Proof.Laws
end

