-- ==== Sys2Proof/Laws/Ops.lean ====
section
/-! SUPPORT. Everything each shared operation can do, said once: issue, the port, the unit step, the commands, a step. -/

namespace Sys2Proof.Laws

open Sys2Proof.Machine

/-! ## Issue -/

/-- A CMD write is not rejected exactly when the block is idle and the word is legal (40_command_execution.md R90). -/
theorem rejection_eq_none_iff (s : State) (c : Word64) :
    rejection s c = none ↔ s.status.busy = false ∧ legalWord s.params.hasLut c = true := by
  rw [legalWord_iff, bit_ne_one_iff]
  unfold rejection
  split_ifs <;> simp_all
  tauto

/-- A rejection records a code other than 0 (60_exceptions.md R210). -/
theorem rejection_ne_none {s : State} {c : Word64} {e : ErrCode} (h : rejection s c = some e) : e ≠ .none := by
  unfold rejection at h
  split_ifs at h <;> cases h <;> simp

/-- A CMD write is accepted or rejected, and nothing else. -/
theorem issue_cases (c : Word64) (s : State) :
    (rejection s c = none ∧ issue c s = accept c s) ∨
    (∃ e, rejection s c = some e ∧ issue c s = reject e s) := by
  unfold issue
  cases h : rejection s c with
  | none => exact .inl ⟨rfl, rfl⟩
  | some e => exact .inr ⟨e, rfl, rfl⟩

/-! ## The port -/

/-- What a transaction can do to the block: nothing, an operand write, or a CMD write (20_memory.md R57). -/
theorem transact_cases (t : Transaction) (s : State) :
    (transact t s).1 = s ∨ (∃ v, (transact t s).1 = { s with opa := v }) ∨
    (∃ v, (transact t s).1 = { s with opb := v }) ∨
    (t = { kind := .write, off := 0x10#6, size := .eight, wdata := t.wdata } ∧
      (transact t s).1 = issue t.wdata s) := by
  obtain ⟨kind, off, size, wdata⟩ := t
  unfold transact
  split
  · exact .inl rfl
  · rename_i hl
    cases kind with
    | read =>
      dsimp only
      split <;> exact .inl rfl
    | write =>
      dsimp only [writeRegister]
      split_ifs with h0 h8 h10
      · exact .inr (.inl ⟨_, rfl⟩)
      · exact .inr (.inr (.inl ⟨_, rfl⟩))
      · refine .inr (.inr (.inr ⟨?_, rfl⟩))
        simp_all [legalTransaction]
      · exact .inl rfl

/-! ## The unit -/

/-- The result byte of the unit step that `s` is about to take (40_command_execution.md R93). -/
def unitByte (s : State) (op : Op) : Byte :=
  byteOp op (variantOfBit (cmdV s.lc))
    (byteAt s.la (bytePosition (nbytes (cmdW s.lc)) s.k.val))
    (byteAt s.lb (bytePosition (nbytes (cmdW s.lc)) s.k.val))

/-- Everything a unit step that answers a next state can do. -/
theorem unitStep_cases {s t : State} (h : unitStep s = .next t) :
    ∃ op, opOfBits (cmdOp s.lc) = some op ∧ legalWord s.params.hasLut s.lc = true ∧
      s.k.val < nbytes (cmdW s.lc) ∧
      ((s.k.val + 1 = nbytes (cmdW s.lc) ∧
          t = complete { s with acc := pushByte s.acc (unitByte s op) }) ∨
       (s.k.val + 1 ≠ nbytes (cmdW s.lc) ∧
          t = { s with acc := pushByte s.acc (unitByte s op), k := s.k + 1 })) := by
  unfold unitStep at h
  dsimp only at h
  split at h
  · cases h
  · rename_i op hop
    split_ifs at h with h1 h2 h3
    · cases h
      refine ⟨op, hop, ?_, by omega, .inl ⟨h3, rfl⟩⟩
      rw [legalWord_iff, bit_ne_one_iff]
      refine ⟨by tauto, fun h => ?_, by tauto, ?_⟩
      · rw [(opOfBits_eq_none_iff _).2 h] at hop; cases hop
      · cases hl : s.params.hasLut <;> simp_all
    · cases h
      refine ⟨op, hop, ?_, by omega, .inr ⟨h3, rfl⟩⟩
      rw [legalWord_iff, bit_ne_one_iff]
      refine ⟨by tauto, fun h => ?_, by tauto, ?_⟩
      · rw [(opOfBits_eq_none_iff _).2 h] at hop; cases hop
      · cases hl : s.params.hasLut <;> simp_all

/-- The unit step of a legal command whose counter is in range, as one equation. -/
theorem unitStep_eq {s : State} {op : Op} (hop : opOfBits (cmdOp s.lc) = some op)
    (hl : legalWord s.params.hasLut s.lc = true) (hk : s.k.val < nbytes (cmdW s.lc)) :
    unitStep s = .next
      (if s.k.val + 1 = nbytes (cmdW s.lc) then complete { s with acc := pushByte s.acc (unitByte s op) }
       else { s with acc := pushByte s.acc (unitByte s op), k := s.k + 1 }) := by
  rw [legalWord_iff, bit_ne_one_iff] at hl
  obtain ⟨h1, -, h3, h4⟩ := hl
  unfold unitStep
  simp only [hop]
  rw [if_neg, if_neg (by omega)]
  · split_ifs <;> rfl
  · rintro (h | h | ⟨h, h'⟩)
    · exact h h1
    · exact h3 h
    · rcases h4 with h4 | h4
      · exact h4 h
      · simp [h4] at h'

/-! ## The commands -/

/-- Every command's meaning in one equation: rejected by the first failing check, or run to its completion. -/
theorem exec_eq (i : Instr) (s : State) :
    exec i s = .next
      (match rejection s (encode i) with
       | some e => reject e s
       | none => complete { accept (encode i) s with
           acc := wordOp (byteOp i.op i.variant) (widthBytes i.width) s.opa s.opb }) := by
  cases i <;> rfl

/-- A command always answers a next state: it has run to its completion, or it was rejected. -/
theorem exec_cases {i : Instr} {s t : State} (h : exec i s = .next t) :
    (∃ e, rejection s (encode i) = some e ∧ t = reject e s) ∨
    (rejection s (encode i) = none ∧
      t = complete { accept (encode i) s with
        acc := wordOp (byteOp i.op i.variant) (widthBytes i.width) s.opa s.opb }) := by
  rw [exec_eq] at h
  cases hr : rejection s (encode i) with
  | none => rw [hr] at h; cases h; exact .inr ⟨rfl, rfl⟩
  | some e => rw [hr] at h; cases h; exact .inl ⟨e, rfl, rfl⟩

/-! ## A step -/

/-- What a step can do to the block: `ins` and `ans` are the port's lists after it. -/
inductive Changes (s : State) : State → Prop where
  /-- an idle turn, a read, an ERR response, an access outside the window -/
  | nothing (ins : List Event) (ans : List Response) : Changes s { s with inputs := ins, answers := ans }
  /-- a write to OPA -/
  | operandA (v : Word64) (ins : List Event) (ans : List Response) :
      Changes s { s with opa := v, inputs := ins, answers := ans }
  /-- a write to OPB -/
  | operandB (v : Word64) (ins : List Event) (ans : List Response) :
      Changes s { s with opb := v, inputs := ins, answers := ans }
  /-- a rejected CMD write -/
  | rejected (c : Word64) (e : ErrCode) (ins : List Event) (ans : List Response)
      (hn : s.nextIssues c) (hr : rejection s c = some e) :
      Changes s (reject e { s with inputs := ins, answers := ans })
  /-- an accepted CMD write -/
  | accepted (c : Word64) (ins : List Event) (ans : List Response)
      (hn : s.nextIssues c) (hr : rejection s c = none) :
      Changes s (accept c { s with inputs := ins, answers := ans })
  /-- a unit step that is not its command's last -/
  | unit (op : Op) (ins : List Event)
      (hn : s.nextIsUnit) (hb : s.status.busy = true) (hop : opOfBits (cmdOp s.lc) = some op)
      (hl : legalWord s.params.hasLut s.lc = true) (hk : s.k.val + 1 < nbytes (cmdW s.lc)) :
      Changes s { s with acc := pushByte s.acc (unitByte s op), k := s.k + 1, inputs := ins }
  /-- the last unit step of a command -/
  | completed (op : Op) (ins : List Event)
      (hn : s.nextIsUnit) (hb : s.status.busy = true) (hop : opOfBits (cmdOp s.lc) = some op)
      (hl : legalWord s.params.hasLut s.lc = true) (hk : s.k.val + 1 = nbytes (cmdW s.lc)) :
      Changes s (complete { s with acc := pushByte s.acc (unitByte s op), inputs := ins })
  /-- a command run from its CMD write to its completion -/
  | ran (i : Instr) (ins : List Event) (ans : List Response)
      (hn : s.inputs = .command (encode i) :: ins) (hr : rejection s (encode i) = none) :
      Changes s (complete { accept (encode i) { s with inputs := ins, answers := ans } with
        acc := wordOp (byteOp i.op i.variant) (widthBytes i.width) s.opa s.opb })
  /-- reset -/
  | reset (ins : List Event) (hn : s.nextResets) : Changes s (resetBlock { s with inputs := ins })

/-- The word that decodes to a command is that command's word. -/
theorem encode_of_decode {c : Word64} {i : Instr} (h : decode c = .ok i) : encode i = c := by
  obtain ⟨hr, ho, hw, hv⟩ := decode_ok_fields h
  have hc : c = cmdRsvd c ++ cmdV c ++ cmdW c ++ cmdOp c := by
    refine BitVec.eq_of_getLsbD_eq fun j hj => ?_
    simp only [cmdRsvd, cmdV, cmdW, cmdOp, BitVec.getLsbD_append, BitVec.getLsbD_extractLsb']
    split_ifs with h1 h2 h3
    · simp [h1]
    · have : j = 2 ∨ j = 3 := by omega
      rcases this with rfl | rfl <;> simp
    · have : j = 4 := by omega
      subst this; simp
    · have : 5 + (j - 2 - 2 - 1) = j := by omega
      rw [this]
      simp; omega
  rw [hc, hr]
  clear hc hr h
  generalize cmdOp c = o at *
  generalize cmdW c = w at *
  generalize cmdV c = v at *
  revert o w v
  cases i <;> decide

theorem unitTurn_changes {s t : State} (ins : List Event) (hn : s.nextIsUnit)
    (h : unitTurn { s with inputs := ins } = .next t) : Changes s t := by
  unfold unitTurn at h
  split_ifs at h with hb
  · obtain ⟨op, hop, hl, hk, ⟨h1, rfl⟩ | ⟨h1, rfl⟩⟩ := unitStep_cases h
    · exact .completed op ins hn hb hop hl h1
    · exact .unit op ins hn hb hop hl (by dsimp only at hk h1 ⊢; omega)
  · cases h
    exact .nothing ins s.answers

theorem serve_changes (t : Transaction) (s : State) (ins : List Event)
    (hn : t = { kind := .write, off := 0x10#6, size := .eight, wdata := t.wdata } → s.nextIssues t.wdata) :
    Changes s (serve t { s with inputs := ins }) := by
  unfold serve
  generalize (transact t { s with inputs := ins }).2 = r
  rcases transact_cases t { s with inputs := ins } with h | ⟨v, h⟩ | ⟨v, h⟩ | ⟨ht, h⟩ <;> rw [h]
  · exact .nothing ins _
  · exact .operandA v ins _
  · exact .operandB v ins _
  · rcases issue_cases t.wdata { s with inputs := ins } with ⟨hr, h'⟩ | ⟨e, hr, h'⟩ <;> rw [h']
    · exact .accepted _ ins (r :: s.answers) (hn ht) hr
    · exact .rejected _ e ins (r :: s.answers) (hn ht) hr

/-- Everything a step that answers a next state can do. -/
theorem step_changes {s t : State} (h : step s = .next t) : Changes s t := by
  unfold step at h
  split at h
  · rename_i hi
    exact unitTurn_changes [] (.inl hi) (by cases s; simp_all)
  · rename_i e rest hi
    cases e with
    | txn x =>
      cases h
      exact serve_changes x s rest fun hx => ⟨rest, .inr (.inl (by rw [hi, ← hx]))⟩
    | bus a =>
      cases h
      unfold serveBus
      split
      · rename_i off ho
        refine serve_changes _ s rest fun hx => ⟨rest, .inr (.inr ⟨a.addr, ?_, ?_⟩)⟩
        · simp only [Transaction.mk.injEq] at hx
          rw [hx.2.1] at ho
          exact ho
        · simp only [Transaction.mk.injEq] at hx
          rw [hi, ← hx.1, ← hx.2.2.1]
      · exact .nothing rest s.answers
    | unitTurn => exact unitTurn_changes rest (.inr ⟨rest, hi⟩) h
    | command c =>
      unfold handle at h
      dsimp only at h
      split at h
      · rename_i i hd
        have hc := encode_of_decode hd
        have hn : s.nextIssues (encode i) := ⟨rest, .inl (by rw [hi, hc])⟩
        rcases exec_cases h with ⟨e, hr, rfl⟩ | ⟨hr, rfl⟩
        · exact .rejected _ e rest (.ok 0 :: s.answers) hn hr
        · exact .ran i rest (.ok 0 :: s.answers) (by rw [hi, hc]) hr
      · cases h
        have hn : s.nextIssues c := ⟨rest, .inl hi⟩
        rcases issue_cases c (answer (.ok 0) { s with inputs := rest }) with ⟨hr, h'⟩ | ⟨e, hr, h'⟩ <;> rw [h']
        · exact .accepted c rest (.ok 0 :: s.answers) hn hr
        · exact .rejected c e rest (.ok 0 :: s.answers) hn hr
    | reset =>
      cases h
      exact .reset rest ⟨rest, hi⟩

theorem step_nil {s : State} (h : s.inputs = []) : step s = unitTurn s := by
  rw [step, h]

theorem step_txn {s : State} {t : Transaction} {rest : List Event} (h : s.inputs = .txn t :: rest) :
    step s = .next (serve t { s with inputs := rest }) := by
  rw [step, h]; rfl

theorem step_bus {s : State} {a : BusAccess} {rest : List Event} (h : s.inputs = .bus a :: rest) :
    step s = .next (serveBus a { s with inputs := rest }) := by
  rw [step, h]; rfl

theorem step_unitTurn {s : State} {rest : List Event} (h : s.inputs = .unitTurn :: rest) :
    step s = unitTurn { s with inputs := rest } := by
  rw [step, h]; rfl

/-- When the unit is next, a step is its turn, with the turn's event (if any) taken off the port. -/
theorem step_nextIsUnit {s : State} (h : s.nextIsUnit) : step s = unitTurn { s with inputs := s.inputs.tail } := by
  obtain h | ⟨rest, h⟩ := h
  · rw [step_nil h, h, List.tail_nil, ← h]
  · rw [step_unitTurn h, h, List.tail_cons]

/-- A CMD write issues its word and answers OK(0) (20_memory.md R55). -/
theorem serve_cmdWrite (c : Word64) (s : State) : serve (cmdWrite c) s = answer (.ok 0) (issue c s) := by
  simp [serve, transact, legalTransaction, writeRegister]

/-- A legal read of a register answers its value (20_memory.md R53). -/
theorem serve_regRead {off : BitVec 6} {s : State} {v : Word64}
    (ha : off.toNat % 8 = 0) (hr : readRegister off s = some v) :
    serve (regRead off) s = answer (.ok v) s := by
  have hl : off.toNat ≤ 0x28 := by
    unfold readRegister at hr
    split_ifs at hr <;> simp_all
  simp [serve, transact, legalTransaction, ha, hl, hr]

/-! ## A run -/

@[simp] theorem runSteps_zero (s : State) : runSteps 0 s = .next s := rfl

/-- A run goes through its first step. -/
theorem runSteps_succ {n : Nat} {s t : State} (h : step s = .next t) : runSteps (n + 1) s = runSteps n t := by
  rw [runSteps, h]

/-- A run that answers a next state has a next state after its first step. -/
theorem runSteps_succ_inv {n : Nat} {s u : State} (h : runSteps (n + 1) s = .next u) :
    ∃ t, step s = .next t ∧ runSteps n t = .next u := by
  rw [runSteps] at h
  cases hs : step s <;> rw [hs] at h
  · exact ⟨_, rfl, h⟩
  · cases h
  · cases h

/-- A run of `m` steps and then of `n`. -/
theorem runSteps_add {m n : Nat} {s t : State} (h : runSteps m s = .next t) :
    runSteps (m + n) s = runSteps n t := by
  induction m generalizing s with
  | zero => cases h; simp
  | succ m ih =>
    obtain ⟨u, hu, hr⟩ := runSteps_succ_inv h
    rw [show m + 1 + n = (m + n) + 1 by omega, runSteps_succ hu]
    exact ih hr

end Sys2Proof.Laws
end

