-- ==== Sys2Proof/Laws/Datapath.lean ====
section
/-! SUPPORT. Small lemmas of the operand and word operations. -/

namespace Sys2Proof.Laws

open Sys2Proof.Machine

theorem getLsbD_byteAt (x : Word64) (j i : Nat) :
    (byteAt x j).getLsbD i = (decide (i < 8) && x.getLsbD (8 * j + i)) := by
  simp [byteAt]

theorem getLsbD_pushByte (acc : Word64) (r : Byte) (i : Nat) (hi : i < 64) :
    (pushByte acc r).getLsbD i = if i < 8 then r.getLsbD i else acc.getLsbD (i - 8) := by
  simp only [pushByte, BitVec.getLsbD_append, BitVec.getLsbD_extractLsb']
  split_ifs with h
  · rfl
  · have : i - 8 < 56 := by omega
    simp [this]

/-- The byte just shifted in is byte 0. -/
@[simp] theorem byteAt_pushByte_zero (acc : Word64) (r : Byte) : byteAt (pushByte acc r) 0 = r := by
  refine BitVec.eq_of_getLsbD_eq fun i hi => ?_
  rw [getLsbD_byteAt, getLsbD_pushByte _ _ _ (by omega)]
  simp [hi]

/-- The others have moved up by one position. -/
theorem byteAt_pushByte_succ (acc : Word64) (r : Byte) (j : Nat) (hj : j + 1 < 8) :
    byteAt (pushByte acc r) (j + 1) = byteAt acc j := by
  refine BitVec.eq_of_getLsbD_eq fun i hi => ?_
  rw [getLsbD_byteAt, getLsbD_byteAt, getLsbD_pushByte _ _ _ (by omega), if_neg (by omega)]
  congr 2
  omega

/-- The accumulator as a number: the top byte leaves, the others move up, `r` comes in. -/
theorem toNat_pushByte (acc : Word64) (r : Byte) :
    (pushByte acc r).toNat = acc.toNat % 2 ^ 56 * 2 ^ 8 + r.toNat := by
  have h1 : (acc.extractLsb' 0 56).toNat = acc.toNat % 2 ^ 56 := by simp
  simp only [pushByte, BitVec.toNat_append, h1]
  rw [Nat.shiftLeft_eq, Nat.mul_comm (acc.toNat % 2 ^ 56), ← Nat.two_pow_add_eq_or_of_lt r.isLt]

theorem nbytes_of_widthOfBits {b : BitVec 2} {w : Width} (h : widthOfBits b = some w) :
    nbytes b = widthBytes w := by
  revert b w; decide

theorem nbytes_pos (b : BitVec 2) : 0 < nbytes b := by
  revert b; decide

theorem nbytes_le (b : BitVec 2) : nbytes b ≤ 8 := by
  revert b; decide

/-- Serial index k takes a byte position below the number of bytes (40_command_execution.md R94). -/
theorem bytePosition_lt {n k : Nat} (h : k < n) : bytePosition n k < n := by
  unfold bytePosition; omega

theorem serialBytes_succ (f : Byte → Byte → Byte) (n : Nat) (a b : Word64) (k : Nat) :
    serialBytes f n a b (k + 1) =
      pushByte (serialBytes f n a b k) (f (byteAt a (bytePosition n k)) (byteAt b (bytePosition n k))) := rfl

/-- The unit's byte as a byte of the operands the block latched. -/
theorem unitByte_eq (s : State) (op : Op) :
    unitByte s op = byteOp op (variantOfBit (cmdV s.lc))
      (byteAt s.la (bytePosition (nbytes (cmdW s.lc)) s.k.val))
      (byteAt s.lb (bytePosition (nbytes (cmdW s.lc)) s.k.val)) := rfl

end Sys2Proof.Laws
end

