-- ==== Sys2Proof/Tests/Slice0.lean ====
section
/-! SUPPORT. Small tests of the model, with expected results from spec/95_test_vectors.md and the tables of the rules
named, and for every obligation that has hypotheses a witness: concrete values that meet all of them together. -/

namespace Sys2Proof.Tests

open Sys2Proof.Machine

/-! ## Blocks to test on -/

/-- A block with the LUT, right after reset. -/
def lutBlock : State := State.resetWith { hasLut := true, base := 64 }

/-- A block without the LUT, right after reset. -/
def plainBlock : State := State.resetWith { hasLut := false, base := 64 }

/-- A block with operands written. -/
def State.load (s : State) (a b : Word64) : State := { s with opa := a, opb := b }

/-- A block with events pending. -/
def State.pend (s : State) (es : List Event) : State := { s with inputs := es }

/-- The next state of a result; a block after reset where there is none. -/
def nextOf : Result → State
  | .next t => t
  | .fault _ => lutBlock
  | .refused _ => lutBlock

/-- Whether a result is the given next state. -/
def isNext (r : Result) (t : State) : Bool :=
  match r with
  | .next u => decide (u = t)
  | .fault _ => false
  | .refused _ => false

theorem eq_next {r : Result} {t : State} (h : isNext r t = true) : r = .next t := by
  cases r <;> simp_all [isNext]

/-- The vector of V7: AND64 accepted from reset, and `k` unit steps taken. -/
def v7 (k : Nat) : State :=
  nextOf (runSteps (k + 1) (State.pend (State.load lutBlock 0x0123456789ABCDEF#64 0xFF00FF00F0F00F0F#64)
    [.txn (cmdWrite 0x0D#64)]))

/-! ## Well-formedness: each check refuses an ill-formed term -/

theorem test_wf_base_refused : ({ hasLut := true, base := 1 } : Params).wellFormed = false := by decide
theorem test_wf_base_63_refused : ({ hasLut := true, base := 63 } : Params).wellFormed = false := by decide
theorem test_wf_base_accepted : ({ hasLut := true, base := 128 } : Params).wellFormed = true := by decide

theorem test_wf_xor8l_refused : Instr.wellFormed { hasLut := false, base := 0 } .xor8l = false := by decide
theorem test_wf_and8l_refused : Instr.wellFormed { hasLut := false, base := 0 } .and8l = false := by decide
theorem test_wf_or8l_refused : Instr.wellFormed { hasLut := false, base := 0 } .or8l = false := by decide
theorem test_wf_xor32l_refused : Instr.wellFormed { hasLut := false, base := 0 } .xor32l = false := by decide
theorem test_wf_and32l_refused : Instr.wellFormed { hasLut := false, base := 0 } .and32l = false := by decide
theorem test_wf_or32l_refused : Instr.wellFormed { hasLut := false, base := 0 } .or32l = false := by decide
theorem test_wf_xor64l_refused : Instr.wellFormed { hasLut := false, base := 0 } .xor64l = false := by decide
theorem test_wf_and64l_refused : Instr.wellFormed { hasLut := false, base := 0 } .and64l = false := by decide
theorem test_wf_or64l_refused : Instr.wellFormed { hasLut := false, base := 0 } .or64l = false := by decide

/-- Without the LUT the nine direct commands stay well formed (R75). -/
theorem test_wf_direct_accepted :
    ([.xor8, .and8, .or8, .xor32, .and32, .or32, .xor64, .and64, .or64] : List Instr).all
      (Instr.wellFormed { hasLut := false, base := 0 }) = true := by decide

/-! ## Decoding: each command's word, written out field by field from R70 and R77 (RSVD, V, W, OP) -/

theorem test_decode_xor8 : decode (0#59 ++ 0b0#1 ++ 0b00#2 ++ 0b00#2) = .ok .xor8 := by decide
theorem test_decode_and8 : decode (0#59 ++ 0b0#1 ++ 0b00#2 ++ 0b01#2) = .ok .and8 := by decide
theorem test_decode_or8 : decode (0#59 ++ 0b0#1 ++ 0b00#2 ++ 0b10#2) = .ok .or8 := by decide
theorem test_decode_xor32 : decode (0#59 ++ 0b0#1 ++ 0b10#2 ++ 0b00#2) = .ok .xor32 := by decide
theorem test_decode_and32 : decode (0#59 ++ 0b0#1 ++ 0b10#2 ++ 0b01#2) = .ok .and32 := by decide
theorem test_decode_or32 : decode (0#59 ++ 0b0#1 ++ 0b10#2 ++ 0b10#2) = .ok .or32 := by decide
theorem test_decode_xor64 : decode (0#59 ++ 0b0#1 ++ 0b11#2 ++ 0b00#2) = .ok .xor64 := by decide
theorem test_decode_and64 : decode (0#59 ++ 0b0#1 ++ 0b11#2 ++ 0b01#2) = .ok .and64 := by decide
theorem test_decode_or64 : decode (0#59 ++ 0b0#1 ++ 0b11#2 ++ 0b10#2) = .ok .or64 := by decide
theorem test_decode_xor8l : decode (0#59 ++ 0b1#1 ++ 0b00#2 ++ 0b00#2) = .ok .xor8l := by decide
theorem test_decode_and8l : decode (0#59 ++ 0b1#1 ++ 0b00#2 ++ 0b01#2) = .ok .and8l := by decide
theorem test_decode_or8l : decode (0#59 ++ 0b1#1 ++ 0b00#2 ++ 0b10#2) = .ok .or8l := by decide
theorem test_decode_xor32l : decode (0#59 ++ 0b1#1 ++ 0b10#2 ++ 0b00#2) = .ok .xor32l := by decide
theorem test_decode_and32l : decode (0#59 ++ 0b1#1 ++ 0b10#2 ++ 0b01#2) = .ok .and32l := by decide
theorem test_decode_or32l : decode (0#59 ++ 0b1#1 ++ 0b10#2 ++ 0b10#2) = .ok .or32l := by decide
theorem test_decode_xor64l : decode (0#59 ++ 0b1#1 ++ 0b11#2 ++ 0b00#2) = .ok .xor64l := by decide
theorem test_decode_and64l : decode (0#59 ++ 0b1#1 ++ 0b11#2 ++ 0b01#2) = .ok .and64l := by decide
theorem test_decode_or64l : decode (0#59 ++ 0b1#1 ++ 0b11#2 ++ 0b10#2) = .ok .or64l := by decide

/-- The table's numbering is the word's own (R79). -/
theorem test_table_word_64 : decodeTableWord 64 0x1D = some .and64l := by decide
theorem test_table_word_5 : decodeTableWord 5 0x1D = some .and64l := by decide
theorem test_table_word_reserved : decodeTableWord 64 0x20 = none := by decide

/-! ## Words that are no command (V9, R78) -/

theorem test_decode_07_is_bad_op : decode 0x07#64 = .error .badOp := by decide
theorem test_decode_15_is_bad_width : decode 0x15#64 = .error .badWidth := by decide
theorem test_decode_3f_is_reserved : decode 0x3F#64 = .error .rsvdBits := by decide
theorem test_decode_bit_63_is_reserved : decode 0x8000000000000000#64 = .error .rsvdBits := by decide
theorem test_decode_bit_32_is_reserved : decode 0x100000008#64 = .error .rsvdBits := by decide

/-! ## The commands: one vector each (V5) -/

theorem test_xor8 :
    exec .xor8 (State.load lutBlock 0xD8#64 0xB6#64) =
      .next ((State.load lutBlock 0xD8#64 0xB6#64).ended 0x00#64 0x6E#64) :=
  eq_next (by decide)

theorem test_and8 :
    exec .and8 (State.load lutBlock 0xD8#64 0xB6#64) =
      .next ((State.load lutBlock 0xD8#64 0xB6#64).ended 0x01#64 0x90#64) :=
  eq_next (by decide)

theorem test_or8 :
    exec .or8 (State.load lutBlock 0xD8#64 0xB6#64) =
      .next ((State.load lutBlock 0xD8#64 0xB6#64).ended 0x02#64 0xFE#64) :=
  eq_next (by decide)

theorem test_xor8l :
    exec .xor8l (State.load lutBlock 0x0F#64 0xFF#64) =
      .next ((State.load lutBlock 0x0F#64 0xFF#64).ended 0x10#64 0xF0#64) :=
  eq_next (by decide)

theorem test_and8l :
    exec .and8l (State.load lutBlock 0xAA#64 0x55#64) =
      .next ((State.load lutBlock 0xAA#64 0x55#64).ended 0x11#64 0x0#64) :=
  eq_next (by decide)

theorem test_or8l :
    exec .or8l (State.load lutBlock 0xAA#64 0x55#64) =
      .next ((State.load lutBlock 0xAA#64 0x55#64).ended 0x12#64 0xFF#64) :=
  eq_next (by decide)

theorem test_xor32 :
    exec .xor32 (State.load lutBlock 0x5553FF55#64 0xA1A2FFA3#64) =
      .next ((State.load lutBlock 0x5553FF55#64 0xA1A2FFA3#64).ended 0x08#64 0xF4F100F6#64) :=
  eq_next (by decide)

theorem test_and32 :
    exec .and32 (State.load lutBlock 0x5553FF55#64 0xA1A2FFA3#64) =
      .next ((State.load lutBlock 0x5553FF55#64 0xA1A2FFA3#64).ended 0x09#64 0x0102FF01#64) :=
  eq_next (by decide)

theorem test_or32 :
    exec .or32 (State.load lutBlock 0x5553FF55#64 0xA1A2FFA3#64) =
      .next ((State.load lutBlock 0x5553FF55#64 0xA1A2FFA3#64).ended 0x0A#64 0xF5F3FFF7#64) :=
  eq_next (by decide)

theorem test_xor32l :
    exec .xor32l (State.load lutBlock 0xFFFFFFFF#64 0x55555555#64) =
      .next ((State.load lutBlock 0xFFFFFFFF#64 0x55555555#64).ended 0x18#64 0xAAAAAAAA#64) :=
  eq_next (by decide)

theorem test_and32l :
    exec .and32l (State.load lutBlock 0xDEADBEEF#64 0x0F0F0F0F#64) =
      .next ((State.load lutBlock 0xDEADBEEF#64 0x0F0F0F0F#64).ended 0x19#64 0x0E0D0E0F#64) :=
  eq_next (by decide)

theorem test_or32l :
    exec .or32l (State.load lutBlock 0x12345678#64 0x87654321#64) =
      .next ((State.load lutBlock 0x12345678#64 0x87654321#64).ended 0x1A#64 0x97755779#64) :=
  eq_next (by decide)

theorem test_xor64 :
    exec .xor64 (State.load lutBlock 0x0123456789ABCDEF#64 0xFEDCBA9876543210#64) =
      .next ((State.load lutBlock 0x0123456789ABCDEF#64 0xFEDCBA9876543210#64).ended 0x0C#64 0xFFFFFFFFFFFFFFFF#64) :=
  eq_next (by decide)

theorem test_and64 :
    exec .and64 (State.load lutBlock 0x0123456789ABCDEF#64 0xFF00FF00F0F00F0F#64) =
      .next ((State.load lutBlock 0x0123456789ABCDEF#64 0xFF00FF00F0F00F0F#64).ended 0x0D#64 0x0100450080A00D0F#64) :=
  eq_next (by decide)

theorem test_or64 :
    exec .or64 (State.load lutBlock 0xAAAAAAAAAAAAAAAA#64 0x5555555555555555#64) =
      .next ((State.load lutBlock 0xAAAAAAAAAAAAAAAA#64 0x5555555555555555#64).ended 0x0E#64 0xFFFFFFFFFFFFFFFF#64) :=
  eq_next (by decide)

theorem test_xor64l :
    exec .xor64l (State.load lutBlock 0x5553FF55A1A2FFA3#64 0xA1A2FFA35553FF55#64) =
      .next ((State.load lutBlock 0x5553FF55A1A2FFA3#64 0xA1A2FFA35553FF55#64).ended 0x1C#64 0xF4F100F6F4F100F6#64) :=
  eq_next (by decide)

theorem test_and64l :
    exec .and64l (State.load lutBlock 0xFFFFFFFFFFFFFFFF#64 0x8000000000000001#64) =
      .next ((State.load lutBlock 0xFFFFFFFFFFFFFFFF#64 0x8000000000000001#64).ended 0x1D#64 0x8000000000000001#64) :=
  eq_next (by decide)

theorem test_or64l :
    exec .or64l (State.load lutBlock 0x0#64 0x0#64) =
      .next ((State.load lutBlock 0x0#64 0x0#64).ended 0x1E#64 0x0#64) :=
  eq_next (by decide)

/-! ## Narrowing, and the LUT variant on a block without the LUT (V6, V9) -/

theorem test_xor8_narrows :
    exec .xor8 (State.load plainBlock 0xFFFFFFFFFFFFFFD8#64 0x12345678ABCDEFB6#64) =
      .next ((State.load plainBlock 0xFFFFFFFFFFFFFFD8#64 0x12345678ABCDEFB6#64).ended 0x00#64 0x6E#64) :=
  eq_next (by decide)

theorem test_and8_narrows :
    exec .and8 (State.load plainBlock 0xFFFFFFFFFFFFFFD8#64 0x12345678ABCDEFB6#64) =
      .next ((State.load plainBlock 0xFFFFFFFFFFFFFFD8#64 0x12345678ABCDEFB6#64).ended 0x01#64 0x90#64) :=
  eq_next (by decide)

theorem test_or8_narrows :
    exec .or8 (State.load plainBlock 0xFFFFFFFFFFFFFFD8#64 0x12345678ABCDEFB6#64) =
      .next ((State.load plainBlock 0xFFFFFFFFFFFFFFD8#64 0x12345678ABCDEFB6#64).ended 0x02#64 0xFE#64) :=
  eq_next (by decide)

theorem test_xor32_narrows :
    exec .xor32 (State.load plainBlock 0xFFFFFFFF5553FF55#64 0x12345678A1A2FFA3#64) =
      .next ((State.load plainBlock 0xFFFFFFFF5553FF55#64 0x12345678A1A2FFA3#64).ended 0x08#64 0xF4F100F6#64) :=
  eq_next (by decide)

theorem test_and32_narrows :
    exec .and32 (State.load plainBlock 0xFFFFFFFF5553FF55#64 0x12345678A1A2FFA3#64) =
      .next ((State.load plainBlock 0xFFFFFFFF5553FF55#64 0x12345678A1A2FFA3#64).ended 0x09#64 0x0102FF01#64) :=
  eq_next (by decide)

theorem test_or32_narrows :
    exec .or32 (State.load plainBlock 0xFFFFFFFF5553FF55#64 0x12345678A1A2FFA3#64) =
      .next ((State.load plainBlock 0xFFFFFFFF5553FF55#64 0x12345678A1A2FFA3#64).ended 0x0A#64 0xF5F3FFF7#64) :=
  eq_next (by decide)

theorem test_xor8l_without_lut : exec .xor8l plainBlock = .next (plainBlock.rejected .noLut) := eq_next (by decide)
theorem test_and8l_without_lut : exec .and8l plainBlock = .next (plainBlock.rejected .noLut) := eq_next (by decide)
theorem test_or8l_without_lut : exec .or8l plainBlock = .next (plainBlock.rejected .noLut) := eq_next (by decide)
theorem test_xor32l_without_lut : exec .xor32l plainBlock = .next (plainBlock.rejected .noLut) := eq_next (by decide)
theorem test_and32l_without_lut : exec .and32l plainBlock = .next (plainBlock.rejected .noLut) := eq_next (by decide)
theorem test_or32l_without_lut : exec .or32l plainBlock = .next (plainBlock.rejected .noLut) := eq_next (by decide)
theorem test_xor64l_without_lut : exec .xor64l plainBlock = .next (plainBlock.rejected .noLut) := eq_next (by decide)
theorem test_and64l_without_lut : exec .and64l plainBlock = .next (plainBlock.rejected .noLut) := eq_next (by decide)
theorem test_or64l_without_lut : exec .or64l plainBlock = .next (plainBlock.rejected .noLut) := eq_next (by decide)

/-! ## The datapath (V2, V3, V4) -/

theorem test_byte_and : byteOpDirect .and 0xD8 0xB6 = 0x90 ∧ byteOpDirect .and 0xFF 0xFF = 0xFF := by decide
theorem test_byte_xor : byteOpDirect .xor 0x7F 0x80 = 0xFF ∧ byteOpDirect .xor 0x01 0x03 = 0x02 := by decide
theorem test_byte_or : byteOpDirect .or 0xF0 0x3C = 0xFC ∧ byteOpDirect .or 0x55 0x55 = 0x55 := by decide
theorem test_byte_lut : byteOpLut .xor 0xD8 0xB6 = 0x6E ∧ byteOpLut .or 0xD8 0xB6 = 0xFE := by decide
theorem test_lut_entries : lutRead 0xD8 = 0x44 ∧ lutRead 0x95 = 0x40 ∧ lutRead 0xFF = 0x55 := by decide
theorem test_planes : evenPart 0xB6 = 0xA2 ∧ oddPart 0xB6 = 0x14 ∧ extract 0xB6 = 0x51 := by decide
theorem test_plane_ops :
    planeXor extract 0x44 0x51 = 0x15 ∧ planeAnd extract 0x44 0x51 = 0x40 ∧ planeOr extract 0x44 0x51 = 0x55 := by
  decide

/-! ## The unit and reset (V7, V8) -/

theorem test_v7_accepted : (v7 0).acc = 0 ∧ (v7 0).k = 0 ∧ (v7 0).status.toWord = 0x1 ∧ (v7 0).lc = 0x0D := by decide
theorem test_v7_step_3 : (v7 3).acc = 0x0000000000010045 ∧ (v7 3).k = 3 ∧ (v7 3).res = 0 := by decide
theorem test_v7_step_7 : (v7 7).acc = 0x000100450080A00D ∧ (v7 7).k = 7 ∧ (v7 7).status.toWord = 0x1 := by decide
theorem test_v7_step_8 : (v7 8).res = 0x0100450080A00D0F ∧ (v7 8).k = 0 ∧ (v7 8).status.toWord = 0x2 := by decide
theorem test_v8_reset_mid_command :
    step (State.pend (v7 3) [.reset]) = .next { lutBlock with answers := (v7 3).answers } :=
  eq_next (by decide)

/-- The first step after reset, with a command placed as the next event (V5's OR8 row with zero operands). -/
theorem test_first_step_after_reset :
    step (State.reset.withFetchWord 64 0x02) = .next { State.reset.ended 0x02 0 with answers := [.ok 0] } :=
  eq_next (by decide)

/-! ## The port (V11) -/

/-- V11's start: OPA = 0x1234. -/
def v11 : State := State.load lutBlock 0x1234 0

theorem test_v11_reads :
    transact (regRead 0x00) v11 = (v11, .ok 0x1234) ∧ transact (regRead 0x10) v11 = (v11, .ok 0) ∧
    transact (regRead 0x20) v11 = (v11, .ok 0) ∧ transact (regRead 0x28) v11 = (v11, .ok 0x10F) := by decide
theorem test_v11_read_errors :
    transact (regRead 0x30) v11 = (v11, .err) ∧ transact (regRead 0x38) v11 = (v11, .err) ∧
    transact (regRead 0x01) v11 = (v11, .err) ∧ transact ⟨.read, 0x04, .four, 0⟩ v11 = (v11, .err) := by decide
theorem test_v11_write_opb : transact ⟨.write, 0x08, .eight, 0xFF⟩ v11 = ({ v11 with opb := 0xFF }, .ok 0) := by decide
theorem test_v11_write_errors :
    transact ⟨.write, 0x00, .two, 0xFF⟩ v11 = (v11, .err) ∧ transact ⟨.write, 0x18, .eight, 5⟩ v11 = (v11, .err) ∧
    transact ⟨.write, 0x20, .eight, 0⟩ v11 = (v11, .err) ∧ transact ⟨.write, 0x28, .eight, 0⟩ v11 = (v11, .err) ∧
    transact ⟨.write, 0x10, .four, 0⟩ v11 = (v11, .err) := by decide
theorem test_v11_rejected_write :
    (transact (cmdWrite 0x3) v11).1.status.toWord = 0x24 ∧ (transact (cmdWrite 0x3) v11).2 = .ok 0 := by decide
theorem test_v11_accepted_write :
    (transact (cmdWrite 0x0) v11).1.la = 0x1234 ∧ (transact (cmdWrite 0x0) v11).1.status.toWord = 0x1 := by decide

/-! ## Witnesses: every hypothesis of an obligation is met by a concrete state

`Busy` states are `v7 k` for k below 8; `v7 8` is an idle block whose command is done. -/

/-- The invariants at a state of V7, from the values of V7's table. -/
theorem v7_blockInv (k : Nat) (h : k = 0 ∨ k = 3 ∨ k = 7 ∨ k = 8) : BlockInv (v7 k) := by
  obtain rfl | rfl | rfl | rfl := h <;> exact ⟨by decide, by decide, by decide, by decide, by decide, by decide, by decide⟩

theorem v7_resultInv (k : Nat) (h : k = 0 ∨ k = 3 ∨ k = 7 ∨ k = 8) : ResultInv (v7 k) := by
  obtain rfl | rfl | rfl | rfl := h <;>
    exact ⟨by intro op; cases op <;> decide, by intro op; cases op <;> decide⟩

/-- What changes the port's lists only keeps the invariants. -/
theorem pend_blockInv {s : State} (es : List Event) (h : BlockInv s) : BlockInv (State.pend s es) :=
  ⟨h.notBusyAndDone, h.errIffCode, h.legalLatched, h.counterInRange, h.counterIdle, h.accBounded, h.resBounded⟩

theorem pend_resultInv {s : State} (es : List Event) (h : ResultInv s) : ResultInv (State.pend s es) :=
  ⟨h.partialResult, h.finalResult⟩

theorem witness_ResetClearsEveryRegister :
    (State.pend (v7 3) [.reset]).inputs = .reset :: [] ∧ (State.pend (v7 3) [.reset]).status.busy = true := by decide

theorem witness_StepKeepsInvariant_busy : BlockInv (v7 7) ∧ step (v7 7) = .next (v7 8) :=
  ⟨v7_blockInv 7 (by decide), eq_next (by decide)⟩

theorem witness_StepKeepsInvariant_idle : BlockInv (v7 8) ∧ step (v7 8) = .next (v7 8) :=
  ⟨v7_blockInv 8 (by decide), eq_next (by decide)⟩

theorem witness_ReachableStatesMeetInvariant :
    runSteps 3 { State.resetWith { hasLut := false, base := 0 } with
      inputs := [.txn { kind := .write, off := 0x00, size := .eight, wdata := 0xD8 }, .txn (cmdWrite 0x00)] } =
      .next { State.resetWith { hasLut := false, base := 0 } with
        opa := 0xD8, la := 0xD8, acc := 0xD8, res := 0xD8, answers := [.ok 0, .ok 0]
        status := { busy := false, done := true, err := false, ecode := .none } } :=
  eq_next (by decide)

theorem witness_StepKeepsResultInvariant : BlockInv (v7 7) ∧ ResultInv (v7 7) ∧ step (v7 7) = .next (v7 8) :=
  ⟨v7_blockInv 7 (by decide), v7_resultInv 7 (by decide), eq_next (by decide)⟩

theorem witness_InvariantStatesNeverStop : BlockInv (v7 0) := v7_blockInv 0 (by decide)

theorem witness_ParametersNeverChange :
    step (State.pend plainBlock [.txn (cmdWrite 0x1E)]) =
      .next { plainBlock.rejected .noLut with answers := [.ok 0] } :=
  eq_next (by decide)

theorem witness_DecodeIsInverseOfEncode : decode 0x1E#64 = .ok .or64l ∧ encode .or64l = 0x1E#64 := by decide

theorem witness_LegalWordsAreTheCommands :
    legalWord false 0x0E#64 = true ∧ Instr.wellFormed plainBlock.params .or64 = true ∧ encode .or64 = 0x0E#64 ∧
    legalWord false 0x1E#64 = false := by decide

theorem witness_DecodeNamesFirstFailingCheck_reserved : cmdRsvd 0x3F#64 ≠ 0#59 := by decide
theorem witness_DecodeNamesFirstFailingCheck_op :
    cmdRsvd 0x17#64 = 0#59 ∧ cmdOp 0x17#64 = 0b11#2 ∧ cmdW 0x17#64 = 0b01#2 := by decide
theorem witness_DecodeNamesFirstFailingCheck_width :
    cmdRsvd 0x16#64 = 0#59 ∧ cmdOp 0x16#64 ≠ 0b11#2 ∧ cmdW 0x16#64 = 0b01#2 := by decide

theorem witness_StepRunsDecodedCommand_command :
    (State.pend lutBlock [.command 0x1C]).inputs = .command 0x1C :: [] ∧ decode 0x1C#64 = .ok .xor64l := by decide
theorem witness_StepRunsDecodedCommand_other :
    (State.pend lutBlock [.command 0x1F]).inputs = .command 0x1F :: [] ∧ decode 0x1F#64 = .error .badOp := by decide

/-- The three cases of `MeetsRule` for a direct command: idle, busy; the third has no state, since `avail` is constant. -/
theorem witness_DirectCommandsMeetRules : plainBlock.status.busy = false ∧ (v7 3).status.busy = true := by decide
theorem witness_LutCommandsMeetRules :
    (lutBlock.status.busy = false ∧ lutBlock.params.hasLut = true) ∧ (v7 3).status.busy = true ∧
    (plainBlock.status.busy = false ∧ plainBlock.params.hasLut = false) := by decide

theorem witness_CommandsKeepTheirFrame_accepted :
    exec .or8l (State.load lutBlock 0xAA 0x55) = .next ((State.load lutBlock 0xAA 0x55).ended 0x12 0xFF) :=
  eq_next (by decide)
theorem witness_CommandsKeepTheirFrame_busy :
    exec .or8l (v7 3) = .next ((v7 3).rejected .busy) ∧ (v7 3).status.busy = true :=
  ⟨eq_next (by decide), by decide⟩
theorem witness_CommandsKeepTheirFrame_noLut :
    exec .or8l plainBlock = .next (plainBlock.rejected .noLut) ∧
    Instr.wellFormed plainBlock.params .or8l = false :=
  ⟨eq_next (by decide), by decide⟩

theorem witness_LegalCmdWriteIsAccepted :
    (State.pend (v7 8) [.txn (cmdWrite 0x1E)]).inputs = .txn (cmdWrite 0x1E) :: [] ∧
    (State.pend (v7 8) [.txn (cmdWrite 0x1E)]).status.busy = false ∧
    legalWord (v7 8).params.hasLut 0x1E = true := by decide

theorem witness_CmdWriteIsRejected_busy :
    (State.pend (v7 3) [.txn (cmdWrite 0x20)]).inputs = .txn (cmdWrite 0x20) :: [] ∧
    (v7 3).status.busy = true := by decide
theorem witness_CmdWriteIsRejected_reserved :
    (State.pend lutBlock [.txn (cmdWrite 0x3F)]).inputs = .txn (cmdWrite 0x3F) :: [] ∧
    lutBlock.status.busy = false ∧ cmdRsvd 0x3F#64 ≠ 0#59 := by decide
theorem witness_CmdWriteIsRejected_op :
    (State.pend plainBlock [.txn (cmdWrite 0x17)]).inputs = .txn (cmdWrite 0x17) :: [] ∧
    plainBlock.status.busy = false ∧ cmdRsvd 0x17#64 = 0#59 ∧ cmdOp 0x17#64 = 0b11#2 := by decide
theorem witness_CmdWriteIsRejected_width :
    (State.pend plainBlock [.txn (cmdWrite 0x16)]).inputs = .txn (cmdWrite 0x16) :: [] ∧
    plainBlock.status.busy = false ∧ cmdRsvd 0x16#64 = 0#59 ∧ cmdOp 0x16#64 ≠ 0b11#2 ∧
    cmdW 0x16#64 = 0b01#2 := by decide
theorem witness_CmdWriteIsRejected_lut :
    (State.pend plainBlock [.txn (cmdWrite 0x1E)]).inputs = .txn (cmdWrite 0x1E) :: [] ∧
    plainBlock.status.busy = false ∧ cmdRsvd 0x1E#64 = 0#59 ∧ cmdOp 0x1E#64 ≠ 0b11#2 ∧ cmdW 0x1E#64 ≠ 0b01#2 ∧
    cmdV 0x1E#64 = 1#1 ∧ plainBlock.params.hasLut = false := by decide

/-- A read of each of the six registers on V7's end state, with the value that V7 and R41 give. -/
theorem witness_LegalReadsAnswerTheRegister :
    (∀ off ∈ [0x00#6, 0x08#6, 0x10#6, 0x18#6, 0x20#6, 0x28#6],
      (State.pend (v7 8) [.txn (regRead off)]).inputs =
        .txn { kind := .read, off := off, size := .eight, wdata := 0 } :: []) ∧
    0x0123456789ABCDEF#64 = (v7 8).opa ∧ 0xFF00FF00F0F00F0F#64 = (v7 8).opb ∧ 0x0D#64 = (v7 8).lc ∧
    0x0100450080A00D0F#64 = (v7 8).res ∧
    (0x2#64).toNat = (ecodeBits (v7 8).status.ecode).toNat * 2 ^ 4 + (v7 8).status.err.toNat * 2 ^ 2 +
      (v7 8).status.done.toNat * 2 + (v7 8).status.busy.toNat ∧
    0x10F#64 = if (v7 8).params.hasLut = true then 0x10F#64 else 0x10E#64 := by decide
theorem witness_LegalReads_status_all :
    (0x56#64).toNat = (ecodeBits .busy).toNat * 2 ^ 4 + true.toNat * 2 ^ 2 + true.toNat * 2 + false.toNat := by decide

theorem witness_OperandWritesSetOneRegister :
    ∀ off ∈ [0x00#6, 0x08#6],
      (State.pend (v7 3) [.txn { kind := .write, off := off, size := .eight, wdata := 5 }]).inputs =
        .txn { kind := .write, off := off, size := .eight, wdata := 5 } :: [] := by decide

/-- A transaction for each way of being illegal (V11), while a command is in flight. -/
theorem witness_IllegalTransactionsOnlyAnswerErr :
    ∀ t ∈ ([⟨.write, 0x10, .four, 0⟩, ⟨.read, 0x27, .eight, 0⟩, ⟨.read, 0x30, .eight, 0⟩, ⟨.write, 0x38, .eight, 0⟩,
        ⟨.write, 0x18, .eight, 0⟩, ⟨.write, 0x20, .eight, 0⟩, ⟨.write, 0x28, .eight, 0⟩] : List Transaction),
      (State.pend (v7 3) [.txn t]).inputs = .txn t :: [] ∧
      (t.size ≠ .eight ∨ t.off.toNat % 8 ≠ 0 ∨ 0x28 < t.off.toNat ∨
        (t.kind = .write ∧ (t.off = 0x18#6 ∨ t.off = 0x20#6 ∨ t.off = 0x28#6))) := by
  intro t h
  refine ⟨rfl, ?_⟩
  revert t
  decide

theorem witness_EveryTransactionIsAnsweredOnce :
    (State.pend (v7 3) [.txn (regRead 0x18)]).inputs = .txn (regRead 0x18) :: [] := by decide

/-- The first and the last byte of the window at 64, and the bytes just outside. -/
theorem witness_BusAddressesReachTheWindow :
    (State.pend lutBlock [.bus ⟨.read, 64, .eight, 0⟩]).inputs = .bus ⟨.read, 64, .eight, 0⟩ :: [] ∧
    64 = lutBlock.params.base + (0x00#6).toNat ∧ 127 = lutBlock.params.base + (0x3F#6).toNat ∧
    63 < lutBlock.params.base ∧ lutBlock.params.base + 64 ≤ 128 := by decide

theorem witness_UnitStepProcessesOneByte_first :
    BlockInv (v7 0) ∧ (v7 0).status.busy = true ∧ (v7 0).nextIsUnit ∧ opOfBits (cmdOp (v7 0).lc) = some .and :=
  ⟨v7_blockInv 0 (by decide), by decide, .inl (by decide), by decide⟩
theorem witness_UnitStepProcessesOneByte_last :
    BlockInv (State.pend (v7 7) [.unitTurn, .reset]) ∧ (v7 7).status.busy = true ∧
    (State.pend (v7 7) [.unitTurn, .reset]).nextIsUnit ∧ opOfBits (cmdOp (v7 7).lc) = some .and ∧
    (v7 7).k.val + 1 = 2 ^ (cmdW (v7 7).lc).toNat :=
  ⟨pend_blockInv _ (v7_blockInv 7 (by decide)), by decide, .inr ⟨[.reset], rfl⟩, by decide, by decide⟩

theorem witness_QuiescentBlockKeepsItsState :
    (v7 8).status.busy = false ∧ (v7 8).nextIsUnit ∧ (State.pend (v7 8) [.unitTurn]).nextIsUnit :=
  ⟨by decide, .inl (by decide), .inr ⟨[], rfl⟩⟩

theorem witness_UnitNeverReadsOperandRegisters : (v7 7).nextIsUnit ∧ step (v7 7) = .next (v7 8) :=
  ⟨.inl (by decide), eq_next (by decide)⟩
theorem witness_UnitNeverReadsOperandRegisters_turn :
    (State.pend (v7 7) [.unitTurn]).nextIsUnit ∧ step (State.pend (v7 7) [.unitTurn]) = .next (v7 8) :=
  ⟨.inr ⟨[], rfl⟩, eq_next (by decide)⟩

/-- One word of each width, each on an idle block. -/
theorem witness_AcceptedCommandEndsAfterItsBytes :
    ∀ c ∈ [0x12#64, 0x1A#64, 0x1E#64],
      (State.pend (v7 8) [.txn (cmdWrite c)]).inputs = [.txn (cmdWrite c)] ∧ (v7 8).status.busy = false ∧
      legalWord (v7 8).params.hasLut c = true ∧ opOfBits (cmdOp c) = some .or := by
  intro c h
  rw [show (v7 8).params.hasLut = true by decide]
  refine ⟨rfl, by decide, ?_⟩
  obtain rfl | rfl | rfl := by simpa using h
  all_goals decide

theorem witness_TransactionsLeaveCommandInFlightAlone_txn :
    (v7 3).status.busy = true ∧ (State.pend (v7 3) [.txn (cmdWrite 0)]).inputs = .txn (cmdWrite 0) :: [] ∧
    step (State.pend (v7 3) [.txn (cmdWrite 0)]) =
      .next { (v7 3).rejected .busy with answers := .ok 0 :: (v7 3).answers } :=
  ⟨by decide, by decide, eq_next (by decide)⟩
theorem witness_TransactionsLeaveCommandInFlightAlone_bus :
    (State.pend (v7 3) [.bus ⟨.write, 64, .eight, 9⟩]).inputs = .bus ⟨.write, 64, .eight, 9⟩ :: [] ∧
    step (State.pend (v7 3) [.bus ⟨.write, 64, .eight, 9⟩]) =
      .next { v7 3 with opa := 9, answers := .ok 0 :: (v7 3).answers } :=
  ⟨by decide, eq_next (by decide)⟩

/-- Five more unit turns after V7's third step, with a write to OPA, a rejected CMD write and a read in between. -/
def v7Interleaved : List Event :=
  [.unitTurn, .txn { kind := .write, off := 0x00, size := .eight, wdata := 0 }, .unitTurn, .unitTurn,
    .bus ⟨.write, 80, .eight, 0⟩, .unitTurn, .txn (regRead 0x18)]

theorem witness_ResultIndependentOfInterleaving :
    BlockInv (State.pend (v7 3) (v7Interleaved ++ [.unitTurn])) ∧
    ResultInv (State.pend (v7 3) (v7Interleaved ++ [.unitTurn])) ∧ (v7 3).status.busy = true ∧
    opOfBits (cmdOp (v7 3).lc) = some .and ∧
    (∀ e ∈ v7Interleaved, (∃ x, e = .txn x) ∨ (∃ a, e = .bus a) ∨ e = .unitTurn) ∧
    (v7 3).k.val + v7Interleaved.count .unitTurn + 1 = nbytes (cmdW (v7 3).lc) ∧
    (State.pend (v7 3) (v7Interleaved ++ [.unitTurn])).inputs = v7Interleaved ++ [.unitTurn] := by
  refine ⟨pend_blockInv _ (v7_blockInv 3 (by decide)), pend_resultInv _ (v7_resultInv 3 (by decide)), by decide,
    by decide, ?_, by decide, rfl⟩
  simp [v7Interleaved]

theorem witness_AtomicCommandRefinesUnitSteps_accepted :
    (v7 8).status.busy = false ∧ legalWord (v7 8).params.hasLut 0x1C = true := by decide
theorem witness_AtomicCommandRefinesUnitSteps_busy : (v7 3).status.busy = true := by decide
theorem witness_AtomicCommandRefinesUnitSteps_illegal : legalWord plainBlock.params.hasLut 0x1C = false := by decide

theorem witness_OnlyCompletionWritesRes : step (v7 7) = .next (v7 8) ∧ (v7 8).res ≠ (v7 7).res :=
  ⟨eq_next (by decide), by decide⟩
theorem witness_OnlyCompletionWritesRes_reset :
    step (State.pend (v7 8) [.reset]) = .next { lutBlock with answers := (v7 8).answers } ∧
    lutBlock.res ≠ (v7 8).res :=
  ⟨eq_next (by decide), by decide⟩
theorem witness_OnlyCompletionWritesRes_atomic :
    step (State.pend (State.load lutBlock 0xAA 0x55) [.command 0x12]) =
      .next { (State.load lutBlock 0xAA 0x55).ended 0x12 0xFF with answers := [.ok 0] } ∧
    ((State.load lutBlock 0xAA 0x55).ended 0x12 0xFF).res ≠ (State.load lutBlock 0xAA 0x55).res :=
  ⟨eq_next (by decide), by decide⟩

theorem witness_OnlyCommandsWriteBusyAndDone_completion :
    step (v7 7) = .next (v7 8) ∧ (v7 8).status.busy ≠ (v7 7).status.busy :=
  ⟨eq_next (by decide), by decide⟩
theorem witness_OnlyCommandsWriteBusyAndDone_acceptance :
    step (State.pend (State.load lutBlock 0x0123456789ABCDEF 0xFF00FF00F0F00F0F) [.txn (cmdWrite 0x0D)]) =
      .next (v7 0) ∧
    (v7 0).status.busy ≠ lutBlock.status.busy :=
  ⟨eq_next (by decide), by decide⟩

theorem witness_OnlyCmdWritesSetErrAndEcode :
    step (State.pend lutBlock [.txn (cmdWrite 0x20)]) =
      .next { lutBlock.rejected .rsvdBits with answers := [.ok 0] } ∧
    (lutBlock.rejected .rsvdBits).status.err ≠ lutBlock.status.err :=
  ⟨eq_next (by decide), by decide⟩

theorem witness_OnlyAcceptanceLatches :
    step (State.pend (State.load lutBlock 0x0123456789ABCDEF 0xFF00FF00F0F00F0F) [.txn (cmdWrite 0x0D)]) =
      .next (v7 0) ∧
    (v7 0).la ≠ lutBlock.la :=
  ⟨eq_next (by decide), by decide⟩

/-- No accepted CMD write and no reset in the next step, from what that step's event is. -/
theorem undisturbed_one {s : State} {e : Event} {rest : List Event} (hi : s.inputs = e :: rest)
    (hc : ∀ c, e ≠ .command c) (hb : ∀ a, e ≠ .bus a) (hr : e ≠ .reset)
    (ha : ∀ t, e = .txn t → s.status.busy = true ∨ legalWord s.params.hasLut t.wdata = false) :
    s.undisturbedFor 1 := by
  intro m u hm hu
  obtain rfl : m = 0 := by omega
  cases hu
  refine ⟨?_, ?_⟩
  · rintro ⟨h0, c, ⟨r, h | h | ⟨a, -, h⟩⟩, hl⟩ <;> rw [hi] at h <;> cases h
    · exact hc _ rfl
    · rcases ha _ rfl with h | h <;> simp_all
    · exact hb _ rfl
  · rintro ⟨r, h⟩
    rw [hi] at h
    cases h
    exact hr rfl

/-- V7 before its last unit step: that step, a STATUS read, a rejected CMD write (word 0x20), and a RES read. -/
def v7Poll : State := State.pend (v7 7) [.unitTurn, .txn (regRead 0x20), .txn (cmdWrite 0x20), .txn (regRead 0x18)]

/-- `v7Poll` after its first `k` events. -/
def v7Polled (k : Nat) : State := nextOf (runSteps k v7Poll)

theorem witness_PolledResultIsTheCommandsResult :
    BlockInv v7Poll ∧ ResultInv v7Poll ∧ (v7Poll.status.busy = true ∨ v7Poll.status.done = true) ∧
    opOfBits (cmdOp v7Poll.lc) = some .and ∧
    v7Poll.undisturbedFor 1 ∧ runSteps 1 v7Poll = .next (v7Polled 1) ∧
    (∃ rest, (v7Polled 1).inputs = .txn (regRead 0x20) :: rest) ∧ step (v7Polled 1) = .next (v7Polled 2) ∧
    (v7Polled 2).answers = .ok 0x2 :: (v7Polled 1).answers ∧ (0x2#64).getLsbD 0 = false ∧
    (v7Polled 2).undisturbedFor 1 ∧ runSteps 1 (v7Polled 2) = .next (v7Polled 3) ∧
    (∃ rest, (v7Polled 3).inputs = .txn (regRead 0x18) :: rest) ∧ step (v7Polled 3) = .next (v7Polled 4) ∧
    (v7Polled 4).answers = .ok 0x0100450080A00D0F :: (v7Polled 3).answers := by
  refine ⟨pend_blockInv _ (v7_blockInv 7 (by decide)), pend_resultInv _ (v7_resultInv 7 (by decide)),
    .inl (by decide), by decide, ?_, eq_next (by decide), ⟨_, rfl⟩, eq_next (by decide), by decide, by decide, ?_,
    eq_next (by decide), ⟨_, rfl⟩, eq_next (by decide), by decide⟩
  · exact undisturbed_one (e := .unitTurn) rfl (by simp) (by simp) (by simp) (by simp)
  · refine undisturbed_one (e := .txn (cmdWrite 0x20)) rfl (by simp) (by simp) (by simp) ?_
    intro t ht
    cases ht
    exact .inr (by decide)

/-- The largest plane sum (V2). -/
theorem witness_PlaneOperationsWorkLaneByLane : 0x55#8 &&& 0xAA#8 = 0 ∧ 0x14#8 &&& 0xAA#8 = 0 := by decide

theorem witness_ReferenceLatencies :
    ∀ m ∈ [0, 7, 8],
      (v7 8).status.busy = false ∧ Instr.wellFormed (v7 8).params .xor64l = true ∧ m ≤ latency .xor64l ∧
      (State.pend (v7 8) (clockEvents ({ rst := false, txn := some (cmdWrite (encode .xor64l)) } ::
        List.replicate m idleCycle))).inputs =
        clockEvents ({ rst := false, txn := some (cmdWrite (encode .xor64l)) } :: List.replicate m idleCycle) := by
  decide

/-- A STATUS read, a CMD write of a legal word and an illegal transaction in the cycle of V7's last unit step. -/
theorem witness_SameCycleOrder_completion :
    (∀ x ∈ ([regRead 0x20, cmdWrite 0x1E, ⟨.write, 0x18, .eight, 0⟩] : List Transaction),
      BlockInv (State.pend (v7 7) (cycleEvents { rst := false, txn := some x } ++ []))) ∧
    (v7 7).status.busy = true ∧ (v7 7).k.val + 1 = nbytes (cmdW (v7 7).lc) ∧
    legalWord (v7 7).params.hasLut 0x1E = true :=
  ⟨fun _ _ => pend_blockInv _ (v7_blockInv 7 (by decide)), by decide, by decide, by decide⟩
theorem witness_SameCycleOrder_reset :
    (State.pend (v7 7) (cycleEvents { rst := true, txn := some (cmdWrite 0) } ++ [])).inputs =
      cycleEvents { rst := true, txn := some (cmdWrite 0) } ++ [] := rfl

/-- A host at the first line of a script, and a block. -/
def systemOf (p : Script) (s : State) : System := { script := p, host := HostAgent.start, block := s }

theorem witness_HostReadTakesTheResponse :
    (systemOf [⟨none, .rd (.t 0) .cap⟩] (v7 3)).host.halted = false ∧
    (systemOf [⟨none, .rd (.t 0) .cap⟩] (v7 3)).script[(0 : Nat)]? = some ⟨none, .rd (.t 0) .cap⟩ := by decide

theorem witness_HostWriteToReadOnlySetsTerr :
    (systemOf [⟨none, .wr .res (.imm 5)⟩] (v7 3)).host.halted = false ∧
    (systemOf [⟨none, .wr .res (.imm 5)⟩] (v7 3)).script[(0 : Nat)]? = some ⟨none, .wr .res (.imm 5)⟩ := by decide

/-- V7 accepted, with a schedule on which the host reads BUSY = 1 and branches back twice before the unit is done. -/
def v7Turns : List Turn :=
  [.unit, .host, .host, .unit, .unit, .host, .unit, .host, .unit, .unit, .unit, .host, .unit]

theorem witness_PollEnds_busy :
    BlockInv (systemOf (Script.poll 1) (v7 0)).block ∧
    (systemOf (Script.poll 1) (v7 0)).host.halted = false ∧
    (systemOf (Script.poll 1) (v7 0)).script[(0 : Nat)]? = (Script.poll 1)[0]? ∧
    (systemOf (Script.poll 1) (v7 0)).script[(1 : Nat)]? = (Script.poll 1)[1]? ∧
    (systemOf (Script.poll 1) (v7 0)).script.find 1 = some 0 ∧
    (∀ a ∈ v7Turns, a = .host ∨ a = .unit) ∧
    nbytes (cmdW (v7 0).lc) ≤ (v7 0).k.val + v7Turns.count .unit :=
  ⟨v7_blockInv 0 (by decide), rfl, rfl, rfl, by decide, by decide, by decide⟩

theorem witness_PollEnds_idle :
    BlockInv (systemOf (Script.poll 1) (v7 8)).block ∧
    (systemOf (Script.poll 1) (v7 8)).host.halted = false ∧
    (systemOf (Script.poll 1) (v7 8)).script[(0 : Nat)]? = (Script.poll 1)[0]? ∧
    (systemOf (Script.poll 1) (v7 8)).script[(1 : Nat)]? = (Script.poll 1)[1]? ∧
    (systemOf (Script.poll 1) (v7 8)).script.find 1 = some 0 ∧
    (∀ a ∈ ([] : List Turn), a = .host ∨ a = .unit) ∧ (v7 8).status.busy = false :=
  ⟨v7_blockInv 8 (by decide), rfl, rfl, rfl, by decide, by decide, by decide⟩

end Sys2Proof.Tests
end

section
/-! PROOF. The parameters of the block are constant (00_scope.md R6). -/

namespace Sys2Proof.Proofs

open Sys2Proof.Machine Sys2Proof.Laws

/-- No change that a step can make, reset included, touches HAS_LUT or BASE. -/
theorem changes_params {s t : State} (h : Changes s t) : t.params = s.params := by
  cases h with
  | nothing | operandA | operandB | unit => rfl
  | rejected => rw [reject_params]
  | accepted => rw [accept_params]
  | completed => rw [complete_params]
  | ran => simp only [complete_params, accept_params]
  | reset => rw [resetBlock_params]

/-- Frame of a step: the parameters keep their values. -/
theorem step_params {s t : State} (h : step s = .next t) : t.params = s.params :=
  changes_params (step_changes h)

/-- Settles O8: no change of a step touches the parameters, and CAP is a function of them alone (R28). -/
theorem parametersNeverChange : Obligations.ParametersNeverChange := by
  intro s t h
  have hp : t.params = s.params := step_params h
  exact ⟨hp, congrArg capWord hp⟩

end Sys2Proof.Proofs
end

section
/-! PROOF. The datapath computes the native operators: plane by plane, byte by byte, word by word. -/

namespace Sys2Proof.Proofs

open Sys2Proof.Machine Sys2Proof.Laws

/-! ## Addition as a half adder -/

/-- A sum is the carry-free sum and the carries, moved up by one position. -/
theorem nat_add_eq_xor_add_and (a b : Nat) : a + b = (a ^^^ b) + 2 * (a &&& b) := by
  induction a using Nat.strong_induction_on generalizing b with
  | _ a ih =>
    rcases Nat.eq_zero_or_pos a with rfl | ha
    · simp
    · have hhalf := ih (a / 2) (by omega) (b / 2)
      rw [← Nat.xor_div_two, ← Nat.and_div_two] at hhalf
      have hxor : (a ^^^ b) % 2 = (a + b) % 2 := Nat.xor_mod_two_eq
      have hand : (a &&& b) % 2 = (a % 2) &&& (b % 2) := Nat.and_mod_two_pow (n := 1)
      rcases Nat.mod_two_eq_zero_or_one a with h | h
      · rw [h, Nat.zero_and] at hand
        omega
      · rw [h, Nat.one_and_eq_mod_two] at hand
        omega

theorem add_eq_xor_add_and {w : Nat} (x y : BitVec w) : x + y = (x ^^^ y) + ((x &&& y) <<< 1) := by
  refine BitVec.eq_of_toNat_eq ?_
  simp only [BitVec.toNat_add, BitVec.toNat_xor, BitVec.toNat_shiftLeft, BitVec.toNat_and, Nat.add_mod_mod]
  rw [nat_add_eq_xor_add_and, Nat.shiftLeft_eq, pow_one, Nat.mul_comm 2]

/-! ## The native operators act bit by bit -/

theorem native_and_mask {w : Nat} (op : Op) (a b m : BitVec w) :
    op.native (a &&& m) (b &&& m) = op.native a b &&& m := by
  refine BitVec.eq_of_getLsbD_eq fun i _ => ?_
  cases op <;> cases h : m.getLsbD i <;> simp [Op.native, h]

theorem native_shiftLeft {w : Nat} (op : Op) (a b : BitVec w) (n : Nat) :
    op.native (a <<< n) (b <<< n) = op.native a b <<< n := by
  cases op with
  | xor => exact (BitVec.shiftLeft_xor_distrib a b n).symm
  | and => exact (BitVec.shiftLeft_and_distrib a b n).symm
  | or => exact (BitVec.shiftLeft_or_distrib a b n).symm

/-! ## Planes: bytes whose odd bits are 0 -/

theorem extract_packed : ∀ x : Byte, extract x &&& 0xAA#8 = 0 := by decide

theorem extract_shiftLeft : ∀ x : Byte, extract x <<< 1 = x &&& 0xAA#8 := by decide

theorem sub_extract_shiftLeft : ∀ x : Byte, x - (extract x <<< 1) = x &&& 0x55#8 := by decide

theorem extract_of_packed : ∀ x : Byte, x &&& 0xAA#8 = 0 → extract x = 0 := by decide

theorem extract_shiftLeft_of_packed : ∀ x : Byte, x &&& 0xAA#8 = 0 → extract (x <<< 1) = x := by decide

theorem shiftLeft_one_sub_self : ∀ x : Byte, x <<< 1 - x = x := by decide

theorem even_mask_add_odd_mask : ∀ x : Byte, (x &&& 0x55#8) + (x &&& 0xAA#8) = x := by decide

theorem even_mask_packed (x : Byte) : (x &&& 0x55#8) &&& 0xAA#8 = 0 := by
  rw [BitVec.and_assoc]
  exact BitVec.and_zero

theorem extract_or (x y : Byte) : extract (x ||| y) = extract x ||| extract y := by
  simp only [extract, BitVec.and_or_distrib_right, BitVec.ushiftRight_or_distrib]

/-- The native result of two packed planes is packed. -/
theorem native_packed (op : Op) {P Q : Byte} (hP : P &&& 0xAA#8 = 0) (hQ : Q &&& 0xAA#8 = 0) :
    op.native P Q &&& 0xAA#8 = 0 := by
  rw [← native_and_mask, hP, hQ]
  cases op <;> rfl

/-- A packed plane and one moved up by a position have no bit in common. -/
theorem packed_and_shiftLeft {D A : Byte} (hD : D &&& 0xAA#8 = 0) (hA : A &&& 0xAA#8 = 0) :
    D &&& (A <<< 1) = 0 := by
  have heven : D &&& 0x55#8 = D := by revert D; decide
  have hodd : 0x55#8 &&& (A <<< 1) = 0 := by revert A; decide
  rw [← heven, BitVec.and_assoc, hodd]
  exact BitVec.and_zero

/-- The carries of two packed planes, moved down, are their AND (41_bitplane_datapath.md R117). -/
theorem planeAnd_packed {P Q : Byte} (hP : P &&& 0xAA#8 = 0) (hQ : Q &&& 0xAA#8 = 0) :
    planeAnd extract P Q = P &&& Q := by
  have hxor : (P ^^^ Q) &&& 0xAA#8 = 0 := native_packed .xor hP hQ
  have hand : (P &&& Q) &&& 0xAA#8 = 0 := native_packed .and hP hQ
  calc planeAnd extract P Q
      = extract ((P ^^^ Q) ||| (P &&& Q) <<< 1) := by
        rw [planeAnd, add_eq_xor_add_and, BitVec.add_eq_or_of_and_eq_zero _ _ (packed_and_shiftLeft hxor hand)]
    _ = P &&& Q := by
        rw [extract_or, extract_of_packed _ hxor, extract_shiftLeft_of_packed _ hand]
        exact BitVec.zero_or

/-- The plane identities give the native operators on packed planes (R117 to R120). -/
theorem planeOp_packed (op : Op) {P Q : Byte} (hP : P &&& 0xAA#8 = 0) (hQ : Q &&& 0xAA#8 = 0) :
    planeOp op extract P Q = op.native P Q := by
  cases op with
  | and => exact planeAnd_packed hP hQ
  | xor =>
    simp only [planeOp, planeXor, planeAnd_packed hP hQ, add_eq_xor_add_and P Q, BitVec.add_sub_cancel]
    rfl
  | or =>
    have hdisj : (P ^^^ Q) &&& (P &&& Q) = 0 := by
      refine BitVec.eq_of_getLsbD_eq fun i _ => ?_
      cases hp : P.getLsbD i <;> simp [hp]
    calc planeOr extract P Q
        = (P ^^^ Q) + ((P &&& Q) <<< 1 - (P &&& Q)) := by
          rw [planeOr, planeAnd_packed hP hQ, add_eq_xor_add_and P Q, add_sub_assoc]
      _ = (P ^^^ Q) ||| (P &&& Q) := by rw [shiftLeft_one_sub_self, BitVec.add_eq_or_of_and_eq_zero _ _ hdisj]
      _ = P ||| Q := by
          refine BitVec.eq_of_getLsbD_eq fun i _ => ?_
          cases hp : P.getLsbD i <;> simp [hp]

/-! ## Bytes -/

/-- The composition of the two planes' results is the native operator (R122, R123). -/
theorem byteOpDirect_eq_native (op : Op) (a b : Byte) : byteOpDirect op a b = op.native a b := by
  have he : planeOp op extract (extract a) (extract b) = op.native (extract a) (extract b) :=
    planeOp_packed op (extract_packed a) (extract_packed b)
  have ho : planeOp op extract (a &&& 0x55#8) (b &&& 0x55#8) = op.native a b &&& 0x55#8 := by
    rw [planeOp_packed op (even_mask_packed a) (even_mask_packed b), native_and_mask]
  calc byteOpDirect op a b
      = (op.native a b &&& 0x55#8) + (op.native (extract a) (extract b) <<< 1) := by
        simp only [byteOpDirect, byteCompose, sub_extract_shiftLeft, he, ho]
    _ = (op.native a b &&& 0x55#8) + (op.native a b &&& 0xAA#8) := by
        rw [← native_shiftLeft, extract_shiftLeft, extract_shiftLeft, native_and_mask]
    _ = op.native a b := even_mask_add_odd_mask _

/-- Every entry of the LUT is the extraction of its index (42_lut_variant.md R140). -/
theorem lutRead_eq_extract : ∀ x : Byte, lutRead x = extract x := by decide

/-- Both variants of the byte primitive are the native operator (R122, R144). -/
theorem byteOp_eq_native (op : Op) (v : Variant) (a b : Byte) : byteOp op v a b = op.native a b := by
  cases v with
  | direct => exact byteOpDirect_eq_native op a b
  | lut =>
    have hX : lutRead = extract := funext lutRead_eq_extract
    calc byteOpLut op a b = byteOpDirect op a b := by rw [byteOpLut, hX, byteOpDirect]
      _ = op.native a b := byteOpDirect_eq_native op a b

/-! ## Words -/

/-- Two words with the same bytes are the same word. -/
theorem eq_of_byteAt_eq {x y : Word64} (h : ∀ j, j < 8 → byteAt x j = byteAt y j) : x = y := by
  refine BitVec.eq_of_getLsbD_eq fun i hi => ?_
  have hb := congrArg (·.getLsbD (i % 8)) (h (i / 8) (by omega))
  simp only [getLsbD_byteAt, Nat.mod_lt i (by omega : 8 > 0), decide_true, Bool.true_and, Nat.div_add_mod] at hb
  exact hb

/-- The bytes of the serial result after `k` steps: the primitive on the `k` most significant byte pairs of the
operands, and 0 above (40_command_execution.md R93, R94). -/
theorem byteAt_serialBytes (f : Byte → Byte → Byte) {n k j : Nat} (a b : Word64) (hk : k ≤ n) (hj : j < 8) :
    byteAt (serialBytes f n a b k) j =
      if j < k then f (byteAt a (n - k + j)) (byteAt b (n - k + j)) else 0 := by
  induction k generalizing j with
  | zero => simp [serialBytes, byteAt]
  | succ k ih =>
    rw [serialBytes_succ]
    cases j with
    | zero =>
      have hpos : bytePosition n k = n - (k + 1) := by unfold bytePosition; omega
      rw [byteAt_pushByte_zero, if_pos k.succ_pos, hpos]; rfl
    | succ j =>
      have hpos : n - k + j = n - (k + 1) + (j + 1) := by omega
      rw [byteAt_pushByte_succ _ _ _ hj, ih (by omega) (by omega), hpos]
      simp only [Nat.add_lt_add_iff_right]

/-- `pushByte` makes room for one byte. -/
theorem toNat_pushByte_lt {acc : Word64} {k : Nat} (r : Byte) (h : acc.toNat < 2 ^ (8 * k)) :
    (pushByte acc r).toNat < 2 ^ (8 * (k + 1)) := by
  have hmod : acc.toNat % 2 ^ 56 < 2 ^ (8 * k) := (Nat.mod_le _ _).trans_lt h
  have hr : r.toNat < 2 ^ 8 := r.isLt
  rw [toNat_pushByte, Nat.mul_succ, Nat.pow_add]
  omega

/-- After `k` bytes the serial result has no bit from `8k` up. -/
theorem toNat_serialBytes_lt (f : Byte → Byte → Byte) (n : Nat) (a b : Word64) (k : Nat) :
    (serialBytes f n a b k).toNat < 2 ^ (8 * k) := by
  induction k with
  | zero => simp [serialBytes]
  | succ k ih => exact toNat_pushByte_lt _ ih

theorem byteAt_nativeResult (op : Op) {n j : Nat} (a b : Word64) (hj : j < 8) :
    byteAt (nativeResult op n a b) j = if j < n then op.native (byteAt a j) (byteAt b j) else 0 := by
  refine BitVec.eq_of_getLsbD_eq fun i hi => ?_
  have h64 : 8 * j + i < 64 := by omega
  rw [getLsbD_byteAt, nativeResult]
  split_ifs with h
  · have hn : 8 * j + i < 8 * n := by omega
    cases op <;> simp [h64, hn, hi, Op.native, byteAt]
  · simp [BitVec.getLsbD_of_ge _ (8 * j + i) (by omega : 8 * n ≤ 8 * j + i)]

/-- The word function with the native byte operator is the native operator on the low `n` bytes (R98, R180). -/
theorem serialBytes_native (op : Op) {n : Nat} (a b : Word64) :
    serialBytes (fun x y => op.native x y) n a b n = nativeResult op n a b := by
  refine eq_of_byteAt_eq fun j hj => ?_
  rw [byteAt_serialBytes _ a b le_rfl hj, byteAt_nativeResult op a b hj, Nat.sub_self, Nat.zero_add]

end Sys2Proof.Proofs
end

section
/-! PROOF. The invariants of 10_state.md R42 and the data path's own: they hold at reset, and every step keeps them. -/

namespace Sys2Proof.Proofs

open Sys2Proof.Machine Sys2Proof.Laws

/-! ## Facts about the counter and the encoded word -/

/-- Every command's word has the fields of its row (30_encoding.md R77). -/
theorem encode_fields : ∀ i : Instr, EncodedFields.Statement i
  | .xor8 => EncodedFields.xor8
  | .and8 => EncodedFields.and8
  | .or8 => EncodedFields.or8
  | .xor32 => EncodedFields.xor32
  | .and32 => EncodedFields.and32
  | .or32 => EncodedFields.or32
  | .xor64 => EncodedFields.xor64
  | .and64 => EncodedFields.and64
  | .or64 => EncodedFields.or64
  | .xor8l => EncodedFields.xor8l
  | .and8l => EncodedFields.and8l
  | .or8l => EncodedFields.or8l
  | .xor32l => EncodedFields.xor32l
  | .and32l => EncodedFields.and32l
  | .or32l => EncodedFields.or32l
  | .xor64l => EncodedFields.xor64l
  | .and64l => EncodedFields.and64l
  | .or64l => EncodedFields.or64l

theorem opOfBits_encode (i : Instr) : opOfBits (cmdOp (encode i)) = some i.op := by
  obtain ⟨-, hop, -, -⟩ := encode_fields i
  exact hop

theorem nbytes_encode (i : Instr) : nbytes (cmdW (encode i)) = widthBytes i.width := by
  obtain ⟨-, -, hw, -⟩ := encode_fields i
  exact nbytes_of_widthOfBits hw

/-- Before the last unit step the counter does not wrap. -/
theorem val_succ_of_lt_nbytes {k : Fin 8} {w : BitVec 2} (h : k.val + 1 < nbytes w) : (k + 1).val = k.val + 1 := by
  have hle : nbytes w ≤ 8 := nbytes_le w
  rw [Fin.val_add_one_of_lt']
  omega

/-- The reset value of LC is a legal word, XOR8, in every block. -/
theorem legalWord_zero : ∀ hasLut : Bool, legalWord hasLut 0#64 = true := by decide

/-! ## The block's invariants under each operation -/

/-- The operand registers and the port's record are no part of the invariants. -/
theorem blockInv_frame {s : State} (h : BlockInv s) (a b : Word64) (ins : List Event) (ans : List Response) :
    BlockInv { s with opa := a, opb := b, inputs := ins, answers := ans } :=
  ⟨h.notBusyAndDone, h.errIffCode, h.legalLatched, h.counterInRange, h.counterIdle, h.accBounded, h.resBounded⟩

theorem blockInv_reject {s : State} {e : ErrCode} (h : BlockInv s) (he : e ≠ .none) : BlockInv (reject e s) :=
  { h with errIffCode := by simpa using he }

theorem blockInv_accept {s : State} {c : Word64} (hc : legalWord s.params.hasLut c = true) :
    BlockInv (accept c s) where
  notBusyAndDone := by simp
  errIffCode := by simp
  legalLatched := hc
  counterInRange _ := nbytes_pos _
  counterIdle := by simp
  accBounded := by simp
  resBounded := by simp

/-- Completion keeps the invariants when ACC holds no bit above the command's width. -/
theorem blockInv_complete {s : State} (herr : s.status.err = true ↔ s.status.ecode ≠ .none)
    (hl : legalWord s.params.hasLut s.lc = true) (hacc : s.acc.toNat < 2 ^ (8 * nbytes (cmdW s.lc))) :
    BlockInv (complete s) where
  notBusyAndDone := by simp
  errIffCode := herr
  legalLatched := hl
  counterInRange := by simp
  counterIdle _ := rfl
  accBounded := by simp
  resBounded _ := hacc

/-- A unit step that is not the last keeps the invariants: one more byte in ACC, one more in the counter. -/
theorem blockInv_unit {s : State} (h : BlockInv s) (hb : s.status.busy = true)
    (hk : s.k.val + 1 < nbytes (cmdW s.lc)) (r : Byte) :
    BlockInv { s with acc := pushByte s.acc r, k := s.k + 1 } :=
  have hval : (s.k + 1).val = s.k.val + 1 := val_succ_of_lt_nbytes hk
  { h with
    counterInRange := fun _ => by rw [hval]; exact hk
    counterIdle := fun hi => by simp [hb] at hi
    accBounded := fun _ => by rw [hval]; exact toNat_pushByte_lt r (h.accBounded hb) }

theorem blockInv_resetWith (p : Params) : BlockInv (State.resetWith p) where
  notBusyAndDone := by simp [State.resetWith]
  errIffCode := by simp [State.resetWith]
  legalLatched := legalWord_zero p.hasLut
  counterInRange := by simp [State.resetWith]
  counterIdle _ := rfl
  accBounded := by simp [State.resetWith]
  resBounded := by simp [State.resetWith]

/-- The result of a command run as one atomic step has no bit above the command's width. -/
theorem toNat_wordOp_lt (f : Byte → Byte → Byte) (i : Instr) (a b : Word64) :
    (wordOp f (widthBytes i.width) a b).toNat < 2 ^ (8 * nbytes (cmdW (encode i))) := by
  rw [nbytes_encode]
  exact toNat_serialBytes_lt f _ a b _

/-- Every change that a step can make keeps the block's invariants. -/
theorem changes_keep_blockInv {s t : State} (h : BlockInv s) (hc : Changes s t) : BlockInv t := by
  cases hc with
  | nothing ins ans => exact blockInv_frame h _ _ ins ans
  | operandA v ins ans => exact blockInv_frame h v _ ins ans
  | operandB v ins ans => exact blockInv_frame h _ v ins ans
  | rejected c e ins ans _ hr => exact blockInv_reject (blockInv_frame h _ _ ins ans) (rejection_ne_none hr)
  | accepted c ins ans _ hr => exact blockInv_accept ((rejection_eq_none_iff s c).1 hr).2
  | unit op ins _ hb _ _ hk => exact blockInv_unit (blockInv_frame h _ _ ins s.answers) hb hk _
  | completed op ins _ hb _ _ hk =>
    refine blockInv_complete h.errIffCode h.legalLatched ?_
    have hacc := toNat_pushByte_lt (unitByte s op) (h.accBounded hb)
    rwa [hk] at hacc
  | ran i ins ans _ hr =>
    exact blockInv_complete (by simp) ((rejection_eq_none_iff s (encode i)).1 hr).2 (toNat_wordOp_lt _ i _ _)
  | reset ins => exact blockInv_frame (blockInv_resetWith s.params) _ _ ins s.answers

/-- Settles O4: a step is one of the changes, and each keeps R42. -/
theorem stepKeepsInvariant : Obligations.StepKeepsInvariant :=
  fun _ _ h hs => changes_keep_blockInv h (step_changes hs)

/-! ## Runs -/

/-- What every step keeps, every run keeps. -/
theorem runSteps_keeps {P : State → Prop} (hstep : ∀ s t, P s → step s = .next t → P t) {n : Nat} {s t : State}
    (h : P s) (hr : runSteps n s = .next t) : P t := by
  induction n generalizing s with
  | zero => cases hr; exact h
  | succ n ih =>
    obtain ⟨u, hu, hr'⟩ := runSteps_succ_inv hr
    exact ih (hstep s u h hu) hr'

/-- Settles O5: R42 holds at reset, whatever is pending, and every step of the run keeps it. -/
theorem reachableStatesMeetInvariant : Obligations.ReachableStatesMeetInvariant :=
  fun p es _ _ hr => runSteps_keeps stepKeepsInvariant (blockInv_frame (blockInv_resetWith p) _ _ es _) hr

/-! ## The data path's invariant under each operation -/

theorem resultInv_frame {s : State} (h : ResultInv s) (a b : Word64) (ins : List Event) (ans : List Response) :
    ResultInv { s with opa := a, opb := b, inputs := ins, answers := ans } :=
  ⟨h.partialResult, h.finalResult⟩

theorem resultInv_reject {s : State} (e : ErrCode) (h : ResultInv s) : ResultInv (reject e s) :=
  ⟨h.partialResult, h.finalResult⟩

theorem resultInv_accept (c : Word64) (s : State) : ResultInv (accept c s) where
  partialResult _ _ _ := rfl
  finalResult _ _ hd := by simp at hd

/-- The unit's byte is the native operator's on the next byte pair, so ACC stays the native partial result. -/
theorem pushByte_unitByte {s : State} {op : Op} (h : ResultInv s) (hb : s.status.busy = true)
    (hop : opOfBits (cmdOp s.lc) = some op) :
    pushByte s.acc (unitByte s op) =
      serialBytes (fun a b => op.native a b) (nbytes (cmdW s.lc)) s.la s.lb (s.k.val + 1) := by
  rw [serialBytes_succ, ← h.partialResult op hop hb, unitByte_eq, byteOp_eq_native]

theorem resultInv_unit {s : State} {op : Op} (h : ResultInv s) (hb : s.status.busy = true)
    (hop : opOfBits (cmdOp s.lc) = some op) (hk : s.k.val + 1 < nbytes (cmdW s.lc)) :
    ResultInv { s with acc := pushByte s.acc (unitByte s op), k := s.k + 1 } where
  partialResult op' hop' _ := by
    cases hop.symm.trans hop'
    rw [val_succ_of_lt_nbytes hk]
    exact pushByte_unitByte h hb hop
  finalResult := h.finalResult

/-- Completion keeps the data path's invariant when ACC holds the whole native result. -/
theorem resultInv_complete {s : State} {op : Op} (hop : opOfBits (cmdOp s.lc) = some op)
    (hacc : s.acc = nativeResult op (nbytes (cmdW s.lc)) s.la s.lb) : ResultInv (complete s) where
  partialResult _ _ hb := by simp at hb
  finalResult op' hop' _ := by
    cases hop.symm.trans hop'
    exact hacc

theorem resultInv_resetWith (p : Params) : ResultInv (State.resetWith p) where
  partialResult _ _ hb := by simp [State.resetWith] at hb
  finalResult _ _ hd := by simp [State.resetWith] at hd

/-- A command run as one atomic step leaves the native result of its operation at its width (R98). -/
theorem wordOp_eq_nativeResult (op : Op) (v : Variant) (n : Nat) (a b : Word64) :
    wordOp (byteOp op v) n a b = nativeResult op n a b := by
  have hf : byteOp op v = fun x y => op.native x y := funext₂ (byteOp_eq_native op v)
  rw [wordOp, hf, serialBytes_native]

/-- Every change that a step can make keeps the data path's invariant. -/
theorem changes_keep_resultInv {s t : State} (h : ResultInv s) (hc : Changes s t) : ResultInv t := by
  cases hc with
  | nothing ins ans => exact resultInv_frame h _ _ ins ans
  | operandA v ins ans => exact resultInv_frame h v _ ins ans
  | operandB v ins ans => exact resultInv_frame h _ v ins ans
  | rejected c e ins ans => exact resultInv_reject e (resultInv_frame h _ _ ins ans)
  | accepted c ins ans => exact resultInv_accept c _
  | unit op ins _ hb hop _ hk =>
    exact resultInv_unit (s := { s with inputs := ins }) (resultInv_frame h _ _ ins s.answers) hb hop hk
  | completed op ins _ hb hop _ hk =>
    refine resultInv_complete hop ?_
    rw [← serialBytes_native]
    have hacc := pushByte_unitByte h hb hop
    rwa [hk] at hacc
  | ran i ins ans =>
    refine resultInv_complete (opOfBits_encode i) ?_
    have hn : nbytes (cmdW (encode i)) = widthBytes i.width := nbytes_encode i
    simp only [accept_lc, accept_la, accept_lb, hn, wordOp_eq_nativeResult]
  | reset ins => exact resultInv_frame (resultInv_resetWith s.params) _ _ ins s.answers

/-- Settles O6: a step is one of the changes, and each keeps ACC and RES native. -/
theorem stepKeepsResultInvariant : Obligations.StepKeepsResultInvariant :=
  fun _ _ _ h hs => changes_keep_resultInv h (step_changes hs)

/-- Settles O3: nothing has been computed at reset, so every clause is about zeros or has no command to speak of. -/
theorem invariantsHoldAtReset : Obligations.InvariantsHoldAtReset :=
  fun p => ⟨blockInv_resetWith p, resultInv_resetWith p⟩

end Sys2Proof.Proofs
end

section
/-! PROOF. Which steps write RES, the flags and the latches (10_state.md R25, R27, R29, R35, R36). -/

namespace Sys2Proof.Proofs

open Sys2Proof.Machine Sys2Proof.Laws

/-- The atomic event of a command word is one of the forms of a CMD write. -/
theorem nextIssues_of_command {s : State} {c : Word64} {rest : List Event} (h : s.inputs = .command c :: rest) :
    s.nextIssues c := ⟨rest, .inl h⟩

/-- Settles O39: of the changes only the last unit step, the atomic command and reset touch RES. -/
theorem onlyCompletionWritesRes : Obligations.OnlyCompletionWritesRes := by
  intro s t hs hne
  cases step_changes hs with
  | nothing | operandA | operandB | rejected | accepted | unit => exact absurd rfl hne
  | completed op ins hn hb _ _ hk => exact .inr ⟨rfl, rfl, rfl, .inl ⟨hb, hn, hk, rfl⟩⟩
  | ran i ins ans hn hr =>
    obtain ⟨hidle, hlegal⟩ := (rejection_eq_none_iff s (encode i)).1 hr
    exact .inr ⟨rfl, rfl, rfl, .inr ⟨hidle, encode i, ins, hn, hlegal, rfl⟩⟩
  | reset ins hn => exact .inl hn

/-- Settles O40: of the changes only an accepted CMD write (alone or with its unit steps), the last unit step and
reset touch BUSY and DONE. -/
theorem onlyCommandsWriteBusyAndDone : Obligations.OnlyCommandsWriteBusyAndDone := by
  intro s t hs hne
  cases step_changes hs with
  | nothing | operandA | operandB | rejected | unit => exact hne.elim (absurd rfl) (absurd rfl)
  | accepted c ins ans hn hr =>
    obtain ⟨hidle, hlegal⟩ := (rejection_eq_none_iff s c).1 hr
    exact .inr (.inl ⟨hidle, c, hn, hlegal, rfl, rfl⟩)
  | completed op ins hn hb => exact .inr (.inr ⟨hb, hn, rfl, rfl⟩)
  | ran i ins ans hn hr =>
    obtain ⟨hidle, hlegal⟩ := (rejection_eq_none_iff s (encode i)).1 hr
    exact .inr (.inl ⟨hidle, encode i, nextIssues_of_command hn, hlegal, rfl, rfl⟩)
  | reset ins hn => exact .inl hn

/-- Settles O41: of the changes only a CMD write, rejected or accepted, and reset touch ERR and ECODE. -/
theorem onlyCmdWritesSetErrAndEcode : Obligations.OnlyCmdWritesSetErrAndEcode := by
  intro s t hs hne
  cases step_changes hs with
  | nothing | operandA | operandB | unit | completed => exact hne.elim (absurd rfl) (absurd rfl)
  | rejected c e ins ans hn => exact .inr ⟨c, hn⟩
  | accepted c ins ans hn => exact .inr ⟨c, hn⟩
  | ran i ins ans hn => exact .inr ⟨encode i, nextIssues_of_command hn⟩
  | reset ins hn => exact .inl hn

/-- Settles O42: of the changes only an accepted CMD write, alone or with its unit steps, and reset touch the
latches. -/
theorem onlyAcceptanceLatches : Obligations.OnlyAcceptanceLatches := by
  intro s t hs hne
  cases step_changes hs with
  | nothing | operandA | operandB | rejected | unit | completed =>
    exact hne.elim (absurd rfl) (Or.elim · (absurd rfl) (absurd rfl))
  | accepted c ins ans hn hr =>
    obtain ⟨hidle, hlegal⟩ := (rejection_eq_none_iff s c).1 hr
    exact .inr ⟨hidle, hn, hlegal, rfl, rfl⟩
  | ran i ins ans hn hr =>
    obtain ⟨hidle, hlegal⟩ := (rejection_eq_none_iff s (encode i)).1 hr
    exact .inr ⟨hidle, nextIssues_of_command hn, hlegal, rfl, rfl⟩
  | reset ins hn => exact .inl hn

end Sys2Proof.Proofs
end

section
/-! PROOF. The words that the registers read as: at reset, STATUS and CAP (10_state.md R26, R28, R41). -/

namespace Sys2Proof.Proofs

open Sys2Proof.Machine Sys2Proof.Laws

/-- CAP as one of its two values (R28). -/
theorem capWord_eq (p : Params) : capWord p = if p.hasLut = true then 0x10F#64 else 0x10E#64 := by
  unfold capWord
  cases p.hasLut <;> rfl

/-- The STATUS word with every flag and the code 0. -/
theorem toWord_reset (p : Params) : (State.resetWith p).status.toWord = 0 :=
  show Status.toWord { busy := false, done := false, err := false, ecode := .none } = 0 by decide

/-- Settles O2: the registers are 0 in the reset state, and CAP is the parameters' own. -/
theorem resetStateReadsAsTabled : Obligations.ResetStateReadsAsTabled :=
  ⟨fun p => ⟨rfl, rfl, rfl, rfl, congrArg some (toWord_reset p), congrArg some (capWord_eq p), rfl, rfl, rfl, rfl⟩,
    _, rfl⟩

/-- Settles O27: CAP is one of two words, and both have the layout. -/
theorem capWordLayout : Obligations.CapWordLayout := by
  intro p
  rw [capWord_eq]
  cases p.hasLut <;> decide

/-- The bits of the STATUS word: the three flags, a reserved 0, and from bit 4 up those of the code (R26). -/
def statusBit (f : Status) : Nat → Bool
  | 0 => f.busy
  | 1 => f.done
  | 2 => f.err
  | 3 => false
  | i + 4 => (ecodeBits f.ecode).getLsbD i

theorem getLsbD_toWord (f : Status) (i : Nat) : f.toWord.getLsbD i = statusBit f i := by
  rw [Status.toWord, BitVec.zeroExtend, BitVec.getLsbD_setWidth]
  iterate 4 rw [BitVec.getLsbD_append]
  match i with
  | 0 | 1 | 2 | 3 => simp [statusBit]
  | i + 4 =>
    have hcode : (ecodeBits f.ecode).getLsbD i = true → i + 4 < 64 := fun h => by
      have := BitVec.lt_of_getLsbD h
      omega
    simpa [statusBit] using hcode

/-- Settles O26: each field stands at its own offset of the concatenation. -/
theorem statusWordLayout : Obligations.StatusWordLayout := by
  intro f
  refine ⟨getLsbD_toWord f 0, getLsbD_toWord f 1, getLsbD_toWord f 2, getLsbD_toWord f 3, ?_, ?_⟩
  · refine BitVec.eq_of_getLsbD_eq fun i hi => ?_
    rw [BitVec.getLsbD_extractLsb', getLsbD_toWord, Nat.add_comm]
    simp [statusBit, hi]
  · refine BitVec.eq_of_getLsbD_eq fun i _ => ?_
    have hge : (ecodeBits f.ecode).getLsbD (i + 4) = false := BitVec.getLsbD_of_ge _ _ (Nat.le_add_left 4 i)
    rw [BitVec.getLsbD_extractLsb', getLsbD_toWord, show 8 + i = i + 4 + 4 by omega, statusBit, hge]
    simp

end Sys2Proof.Proofs
end

section
/-! PROOF. The register port: what each transaction answers and does, and which bus addresses reach it
(20_memory.md R50 to R57, R60). -/

namespace Sys2Proof.Proofs

open Sys2Proof.Machine Sys2Proof.Laws

/-! ## Which transactions are carried out -/

theorem legalTransaction_iff (t : Transaction) :
    legalTransaction t = true ↔ t.size = .eight ∧ t.off.toNat % 8 = 0 ∧ t.off.toNat ≤ 0x28 := by
  simp [legalTransaction, and_assoc]

theorem transact_of_not_legal {t : Transaction} (h : ¬ legalTransaction t = true) (s : State) :
    transact t s = (s, .err) := by
  rw [transact, if_pos (Bool.eq_false_of_not_eq_true h)]

theorem transact_read {t : Transaction} {s : State} {v : Word64} (hl : legalTransaction t = true)
    (hk : t.kind = .read) (hv : readRegister t.off s = some v) : transact t s = (s, .ok v) := by
  simp [transact, hl, hk, hv]

theorem transact_write {t : Transaction} (hl : legalTransaction t = true) (hk : t.kind = .write) (s : State) :
    transact t s = writeRegister t.off t.wdata s := by
  simp [transact, hl, hk]

/-- A register stands at every aligned offset up to 0x28 (R53). -/
theorem exists_readRegister {off : BitVec 6} (ha : off.toNat % 8 = 0) (hle : off.toNat ≤ 0x28) (s : State) :
    ∃ v, readRegister off s = some v := by
  have hoff : off = 0x00#6 ∨ off = 0x08#6 ∨ off = 0x10#6 ∨ off = 0x18#6 ∨ off = 0x20#6 ∨ off = 0x28#6 := by
    revert off; decide
  obtain rfl | rfl | rfl | rfl | rfl | rfl := hoff <;> exact ⟨_, rfl⟩

/-- A write at an aligned offset up to 0x10 answers OK(0) (R54, R55). -/
theorem writeRegister_writable {off : BitVec 6} (ha : off.toNat % 8 = 0) (hle : off.toNat ≤ 0x10) (v : Word64)
    (s : State) : (writeRegister off v s).2 = .ok 0 := by
  have hoff : off = 0x00#6 ∨ off = 0x08#6 ∨ off = 0x10#6 := by
    revert off; decide
  obtain rfl | rfl | rfl := hoff <;> rfl

/-- A write above 0x10 answers ERR and changes nothing (R56). -/
theorem writeRegister_readOnly {off : BitVec 6} (h : 0x10 < off.toNat) (v : Word64) (s : State) :
    writeRegister off v s = (s, .err) := by
  have hoff : off ≠ 0x00#6 ∧ off ≠ 0x08#6 ∧ off ≠ 0x10#6 := by
    refine ⟨?_, ?_, ?_⟩ <;> rintro rfl <;> simp at h
  obtain ⟨h0, h8, h10⟩ := hoff
  rw [writeRegister, if_neg h0, if_neg h8, if_neg h10]

/-- When the block carries a transaction out: it is legal (R52), and a write goes to a writable register (R56). -/
def Answerable (t : Transaction) : Prop :=
  t.size = .eight ∧ t.off.toNat % 8 = 0 ∧ t.off.toNat ≤ 0x28 ∧ (t.kind = .read ∨ t.off.toNat ≤ 0x10)

/-- An answerable transaction is answered by OK, a write with data 0 (R57). -/
theorem transact_answerable {t : Transaction} (h : Answerable t) (s : State) :
    ∃ v, (transact t s).2 = .ok v ∧ (t.kind = .write → v = 0) := by
  obtain ⟨hs, ha, hle, hw⟩ := h
  have hl : legalTransaction t = true := (legalTransaction_iff t).2 ⟨hs, ha, hle⟩
  cases hk : t.kind with
  | read =>
    obtain ⟨v, hv⟩ := exists_readRegister ha hle s
    exact ⟨v, by rw [transact_read hl hk hv], nofun⟩
  | write =>
    have hle' : t.off.toNat ≤ 0x10 := by simpa [hk] using hw
    exact ⟨0, by rw [transact_write hl hk, writeRegister_writable ha hle'], fun _ => rfl⟩

/-- Any other transaction only answers ERR (R56, R60). -/
theorem transact_not_answerable {t : Transaction} (h : ¬ Answerable t) (s : State) : transact t s = (s, .err) := by
  by_cases hl : legalTransaction t = true
  · obtain ⟨hs, ha, hle⟩ := (legalTransaction_iff t).1 hl
    have hw : ¬ (t.kind = .read ∨ t.off.toNat ≤ 0x10) := fun hw => h ⟨hs, ha, hle, hw⟩
    have hro : 0x10 < t.off.toNat := by omega
    cases hk : t.kind with
    | read => exact absurd (.inl hk) hw
    | write => rw [transact_write hl hk, writeRegister_readOnly hro]
  · exact transact_of_not_legal hl s

/-! ## A transaction leaves the port's record to `serve` -/

@[simp] theorem issue_inputs (c : Word64) (s : State) : (issue c s).inputs = s.inputs := by
  obtain ⟨-, h⟩ | ⟨e, -, h⟩ := issue_cases c s <;> simp [h]

@[simp] theorem issue_answers (c : Word64) (s : State) : (issue c s).answers = s.answers := by
  obtain ⟨-, h⟩ | ⟨e, -, h⟩ := issue_cases c s <;> simp [h]

@[simp] theorem transact_inputs (t : Transaction) (s : State) : (transact t s).1.inputs = s.inputs := by
  obtain h | ⟨v, h⟩ | ⟨v, h⟩ | ⟨-, h⟩ := transact_cases t s <;> simp [h]

@[simp] theorem transact_answers (t : Transaction) (s : State) : (transact t s).1.answers = s.answers := by
  obtain h | ⟨v, h⟩ | ⟨v, h⟩ | ⟨-, h⟩ := transact_cases t s <;> simp [h]

/-! ## The steps that carry out transactions -/

/-- A step that reads a register answers its value and changes nothing else (R53). -/
theorem step_read {s : State} {off : BitVec 6} {w v : Word64} {rest : List Event}
    (hi : s.inputs = .txn { kind := .read, off := off, size := .eight, wdata := w } :: rest)
    (ha : off.toNat % 8 = 0) (hv : readRegister off s = some v) :
    step s = .next { s with inputs := rest, answers := .ok v :: s.answers } := by
  have hignored : ∀ u, serve { kind := .read, off := off, size := .eight, wdata := w } u = serve (regRead off) u :=
    fun _ => rfl
  rw [step_txn hi, hignored, serve_regRead ha (s := { s with inputs := rest }) hv]
  rfl

/-- A step that writes at an aligned offset up to 0x28 is that register's write and its response. -/
theorem step_write {s : State} {off : BitVec 6} {v : Word64} {rest : List Event}
    (hi : s.inputs = .txn { kind := .write, off := off, size := .eight, wdata := v } :: rest)
    (ha : off.toNat % 8 = 0) (hle : off.toNat ≤ 0x28) :
    step s = .next (answer (writeRegister off v { s with inputs := rest }).2
      (writeRegister off v { s with inputs := rest }).1) := by
  rw [step_txn hi, serve, transact_write ((legalTransaction_iff _).2 ⟨rfl, ha, hle⟩) rfl]

/-- The STATUS word as R53 sums it. -/
theorem toNat_toWord (f : Status) :
    f.toWord.toNat =
      (ecodeBits f.ecode).toNat * 2 ^ 4 + f.err.toNat * 2 ^ 2 + f.done.toNat * 2 + f.busy.toNat := by
  obtain ⟨busy, done, err, ecode⟩ := f
  unfold Status.toWord
  dsimp only
  generalize ecodeBits ecode = code
  revert code err done busy
  decide

/-- Settles O25: at each of the six offsets the value is the one that the register there reads as. -/
theorem legalReadsAnswerTheRegister : Obligations.LegalReadsAnswerTheRegister := by
  intro s off w v rest hi h
  obtain ⟨rfl, rfl⟩ | ⟨rfl, rfl⟩ | ⟨rfl, rfl⟩ | ⟨rfl, rfl⟩ | ⟨rfl, hv⟩ | ⟨rfl, hv⟩ := h
  iterate 4 exact step_read hi rfl rfl
  · have hword : s.status.toWord = v := BitVec.eq_of_toNat_eq ((toNat_toWord _).trans hv.symm)
    exact step_read hi rfl (congrArg some hword)
  · have hword : capWord s.params = v := (capWord_eq _).trans hv.symm
    exact step_read hi rfl (congrArg some hword)

/-- Settles O28: both transactions are legal, and a write there is the update of the one field. -/
theorem operandWritesSetOneRegister : Obligations.OperandWritesSetOneRegister :=
  fun _ _ _ => ⟨fun hi => step_write hi rfl (by decide), fun hi => step_write hi rfl (by decide)⟩

/-- Settles O29: each of the conditions makes the transaction unanswerable. -/
theorem illegalTransactionsOnlyAnswerErr : Obligations.IllegalTransactionsOnlyAnswerErr := by
  intro s t rest hi h
  have hbad : ¬ Answerable t := by
    rintro ⟨hs, ha, hle, hw⟩
    obtain h | h | h | ⟨hk, hoff⟩ := h
    · exact h hs
    · exact h ha
    · omega
    · have hlow : t.off.toNat ≤ 0x10 := by simpa [hk] using hw
      obtain h | h | h := hoff <;> simp [h] at hlow
  rw [step_txn hi, serve, transact_not_answerable hbad]
  rfl

/-- Settles O30: `serve` records the transaction's response, which is OK exactly for the answerable ones. -/
theorem everyTransactionIsAnsweredOnce : Obligations.EveryTransactionIsAnsweredOnce := by
  intro s t rest hi
  refine ⟨_, (transact t { s with inputs := rest }).2, step_txn hi, transact_inputs t _,
    congrArg _ (transact_answers t _), ?_⟩
  change (_ ↔ Answerable t) ∧ _
  by_cases h : Answerable t
  · obtain ⟨v, hv, h0⟩ := transact_answerable h { s with inputs := rest }
    rw [hv]
    exact ⟨iff_of_true nofun h, h0⟩
  · rw [transact_not_answerable h]
    exact ⟨iff_of_false (fun hne => hne rfl) h, fun _ => rfl⟩

/-! ## The window on the host's bus -/

theorem windowOffset_add (base : Nat) (off : BitVec 6) : windowOffset base (base + off.toNat) = some off := by
  have hlt : off.toNat < 64 := off.isLt
  rw [windowOffset, if_pos (by omega), Nat.add_sub_cancel_left, BitVec.ofNat_toNat, BitVec.setWidth_eq]

theorem windowOffset_outside {base addr : Nat} (h : addr < base ∨ base + 64 ≤ addr) :
    windowOffset base addr = none := by
  rw [windowOffset, if_neg (by omega)]

/-- Settles O31: in the window the access is served as the transaction at its offset, elsewhere not at all. -/
theorem busAddressesReachTheWindow : Obligations.BusAddressesReachTheWindow := by
  intro s a rest hi
  refine ⟨fun off haddr => ?_, fun hout => ?_⟩
  · have hwin : windowOffset s.params.base a.addr = some off := by rw [haddr, windowOffset_add]
    rw [step_bus hi, step_txn rfl, serveBus]
    simp only [hwin]
  · have hwin : windowOffset s.params.base a.addr = none := windowOffset_outside hout
    rw [step_bus hi, serveBus]
    simp only [hwin]

end Sys2Proof.Proofs
end

section
/-! PROOF. The order of events in one cycle: completion, then the transaction, and reset before both (20_memory.md
R65, 60_exceptions.md R217). -/

namespace Sys2Proof.Proofs

open Sys2Proof.Machine Sys2Proof.Laws

theorem step_reset {s : State} {rest : List Event} (h : s.inputs = .reset :: rest) :
    step s = .next (resetBlock { s with inputs := rest }) := by
  rw [step, h]; rfl

/-- The OP field of a legal word names an operation. -/
theorem exists_op_of_legalWord {hasLut : Bool} {c : Word64} (h : legalWord hasLut c = true) :
    ∃ op, opOfBits (cmdOp c) = some op := by
  obtain ⟨-, hop, -, -⟩ := (legalWord_iff hasLut c).1 h
  exact Option.ne_none_iff_exists'.1 (mt (opOfBits_eq_none_iff _).1 hop)

/-- The last unit step of a command completes it, whatever is pending (40_command_execution.md R95). -/
theorem unitTurn_last {s : State} (h : BlockInv s) (hb : s.status.busy = true)
    (hk : s.k.val + 1 = nbytes (cmdW s.lc)) :
    ∃ r, ∀ ins, unitTurn { s with inputs := ins } = .next (complete { s with acc := r, inputs := ins }) := by
  obtain ⟨op, hop⟩ := exists_op_of_legalWord h.legalLatched
  refine ⟨pushByte s.acc (unitByte s op), fun ins => ?_⟩
  rw [unitTurn, if_pos hb, unitStep_eq (s := { s with inputs := ins }) hop h.legalLatched (h.counterInRange hb),
    if_pos hk]
  rfl

/-- A CMD write of a legal word to an idle block accepts it and answers OK(0) (R90). -/
theorem serve_cmdWrite_accepted {c : Word64} {s : State} (hb : s.status.busy = false)
    (hl : legalWord s.params.hasLut c = true) : serve (cmdWrite c) s = answer (.ok 0) (accept c s) := by
  have hr : rejection s c = none := (rejection_eq_none_iff s c).2 ⟨hb, hl⟩
  rw [serve_cmdWrite, issue, hr]

/-- Settles O53: the cycle's first event completes the command, and its second is served by the completed block; a
reset cycle has no other event. -/
theorem sameCycleOrder : Obligations.SameCycleOrder := by
  refine ⟨fun s x rest hinv hb hk hi => ?_, fun s x rest hi => step_reset hi⟩
  obtain ⟨r, hturn⟩ := unitTurn_last hinv hb hk
  have hunit : step s = .next (complete { s with acc := r, inputs := .txn x :: rest }) :=
    (step_unitTurn hi).trans (hturn _)
  refine ⟨complete { s with acc := r, inputs := rest }, hturn rest, rfl, rfl, rfl, ?_, ?_, ?_⟩
  · rw [runSteps_succ hunit, runSteps_succ (step_txn rfl), runSteps_zero]
    rfl
  · rintro rfl
    exact ⟨_, serve_regRead rfl rfl, getLsbD_toWord _ 0, getLsbD_toWord _ 1⟩
  · rintro c rfl hl
    rw [serve_cmdWrite_accepted (s := complete { s with acc := r, inputs := rest }) rfl hl]
    exact ⟨rfl, rfl, rfl, rfl, rfl, rfl⟩

end Sys2Proof.Proofs
end

section
/-! PROOF. A polled result is the result of the command that the block holds (20_memory.md R64). -/

namespace Sys2Proof.Proofs

open Sys2Proof.Machine Sys2Proof.Laws

/-! ## Undisturbed steps and runs -/

/-- A step from `s` to `t` that is neither an acceptance nor a reset. -/
structure UndisturbedStep (s t : State) : Prop where
  step_eq : step s = .next t
  not_accepts : ¬ s.nextAccepts
  not_resets : ¬ s.nextResets

/-- What every undisturbed step keeps, every undisturbed run keeps. -/
theorem undisturbed_run_keeps {P : State → Prop} (hstep : ∀ s t, UndisturbedStep s t → P s → P t) {n : Nat}
    {s t : State} (hu : s.undisturbedFor n) (hr : runSteps n s = .next t) (h : P s) : P t := by
  induction n generalizing s with
  | zero => cases hr; exact h
  | succ n ih =>
    obtain ⟨u, hs, hr'⟩ := runSteps_succ_inv hr
    obtain ⟨ha, hreset⟩ := hu 0 s n.succ_pos rfl
    have hu' : u.undisturbedFor n := fun m w hm hw =>
      hu (m + 1) w (Nat.succ_lt_succ hm) (by rw [runSteps_succ hs, hw])
    exact ih hu' hr' (hstep s u ⟨hs, ha, hreset⟩ h)

/-- The command and its latched operands stay (10_state.md R35, R36). -/
theorem UndisturbedStep.latches {s t : State} (h : UndisturbedStep s t) :
    t.la = s.la ∧ t.lb = s.lb ∧ t.lc = s.lc := by
  by_contra hne
  have hchanged : t.la ≠ s.la ∨ t.lb ≠ s.lb ∨ t.lc ≠ s.lc := by tauto
  obtain hreset | ⟨hidle, hn, hl, -, -⟩ := onlyAcceptanceLatches s t h.step_eq hchanged
  · exact h.not_resets hreset
  · exact h.not_accepts ⟨hidle, _, hn, hl⟩

/-- BUSY and DONE stay, or the command completes (R27). -/
theorem UndisturbedStep.flags {s t : State} (h : UndisturbedStep s t) :
    (t.status.busy = s.status.busy ∧ t.status.done = s.status.done) ∨ t.status.done = true := by
  by_cases hsame : t.status.busy = s.status.busy ∧ t.status.done = s.status.done
  · exact .inl hsame
  · obtain hreset | ⟨hidle, c, hn, hl, -, -⟩ | ⟨-, -, -, hdone⟩ :=
      onlyCommandsWriteBusyAndDone s t h.step_eq (not_and_or.1 hsame)
    · exact absurd hreset h.not_resets
    · exact absurd ⟨hidle, c, hn, hl⟩ h.not_accepts
    · exact .inr hdone

theorem UndisturbedStep.keeps_done {s t : State} (h : UndisturbedStep s t) (hd : s.status.done = true) :
    t.status.done = true := by
  obtain ⟨-, hsame⟩ | hdone := h.flags
  · rw [hsame, hd]
  · exact hdone

/-! ## The command that a block holds -/

/-- In `t` the block still holds the command of `s` with its latched operands, in flight or done, and its data path
has worked on them. -/
structure HoldsCommandOf (s t : State) : Prop where
  la_eq : t.la = s.la
  lb_eq : t.lb = s.lb
  lc_eq : t.lc = s.lc
  result : ResultInv t
  started : t.status.busy = true ∨ t.status.done = true

theorem HoldsCommandOf.keeps {s t u : State} (h : HoldsCommandOf s t) (hu : UndisturbedStep t u) :
    HoldsCommandOf s u := by
  obtain ⟨hla, hlb, hlc⟩ := hu.latches
  refine ⟨hla.trans h.la_eq, hlb.trans h.lb_eq, hlc.trans h.lc_eq,
    changes_keep_resultInv h.result (step_changes hu.step_eq), ?_⟩
  obtain ⟨hbusy, hdone⟩ | hdone := hu.flags
  · rw [hbusy, hdone]
    exact h.started
  · exact .inr hdone

/-- Once the command is done, RES holds its native result (R98). -/
theorem HoldsCommandOf.res_eq {s t : State} {op : Op} (h : HoldsCommandOf s t) (hd : t.status.done = true)
    (hop : opOfBits (cmdOp s.lc) = some op) : t.res = nativeResult op (nbytes (cmdW s.lc)) s.la s.lb := by
  rw [← h.lc_eq] at hop
  rw [h.result.finalResult op hop hd, h.lc_eq, h.la_eq, h.lb_eq]

/-- What a read of a register answered is the register's value; the block is unchanged. -/
theorem step_read_inv {s t : State} {off : BitVec 6} {r v : Word64}
    (hi : ∃ rest, s.inputs = .txn (regRead off) :: rest) (ha : off.toNat % 8 = 0) (hr : readRegister off s = some r)
    (hs : step s = .next t) (hans : t.answers = .ok v :: s.answers) :
    v = r ∧ ∃ ins ans, t = { s with inputs := ins, answers := ans } := by
  obtain ⟨rest, hi⟩ := hi
  rw [step_read hi ha hr] at hs
  cases hs
  obtain ⟨⟨⟩, -⟩ := List.cons.inj hans
  exact ⟨rfl, _, _, rfl⟩

/-- Settles O43: the block holds the command all along; a STATUS read with BUSY = 0 says that it is done, which it
stays, and then RES is its result. -/
theorem polledResultIsTheCommandsResult : Obligations.PolledResultIsTheCommandsResult := by
  intro s s1 s2 s3 s4 op n m v w _ hres hstarted hop hun hrn hi1 hs1 hans1 hv hum hrm hi3 hs3 hans3
  have hold1 : HoldsCommandOf s s1 :=
    undisturbed_run_keeps (fun _ _ hu h => h.keeps hu) hun hrn ⟨rfl, rfl, rfl, hres, hstarted⟩
  obtain ⟨rfl, ins2, ans2, rfl⟩ := step_read_inv hi1 rfl rfl hs1 hans1
  have hbusy1 : s1.status.busy = false := (getLsbD_toWord _ 0).symm.trans hv
  have hdone1 : s1.status.done = true := by simpa [hbusy1] using hold1.started
  have hold2 : HoldsCommandOf s { s1 with inputs := ins2, answers := ans2 } :=
    { hold1 with result := resultInv_frame hold1.result _ _ ins2 ans2 }
  have hold3 : HoldsCommandOf s s3 := undisturbed_run_keeps (fun _ _ hu h => h.keeps hu) hum hrm hold2
  have hdone3 : s3.status.done = true := undisturbed_run_keeps (fun _ _ hu h => hu.keeps_done h) hum hrm hdone1
  obtain ⟨rfl, ins4, ans4, rfl⟩ := step_read_inv hi3 rfl rfl hs3 hans3
  exact ⟨hold3.res_eq hdone3 hop, (getLsbD_toWord _ 1).trans hdone1, hold3.lc_eq⟩

end Sys2Proof.Proofs
end

section
/-! PROOF. The command word: the decoder and the encoder are inverse, which words are legal, and how the others are
refused (30_encoding.md R70 to R79, 60_exceptions.md R211). -/

namespace Sys2Proof.Proofs

open Sys2Proof.Laws

/-! ## Decoding and encoding -/

/-- A command is the one of its variant, width and operation. -/
theorem instrOf_fields (i : Instr) : instrOf i.variant i.width i.op = i := by
  cases i <;> rfl

/-- A word without reserved bits whose OP and W name an operation and a width decodes to their command. -/
theorem decode_of_fields {c : Word64} {o : Op} {w : Width} (hr : cmdRsvd c = 0#59)
    (ho : opOfBits (cmdOp c) = some o) (hw : widthOfBits (cmdW c) = some w) :
    decode c = .ok (instrOf (variantOfBit (cmdV c)) w o) := by
  simp [decode, hr, ho, hw]

theorem decode_encode (i : Instr) : decode (encode i) = .ok i := by
  obtain ⟨hr, ho, hw, hv⟩ := encode_fields i
  rw [decode_of_fields hr ho hw, hv, instrOf_fields]

/-- Settles O11: a word that decodes to a command is its word, and that word has the command's fields. -/
theorem decodeIsInverseOfEncode : Obligations.DecodeIsInverseOfEncode := by
  refine fun c i => ⟨encode_of_decode, ?_⟩
  rintro rfl
  exact decode_encode i

/-- Settles O9: each row's word is the word that its command encodes to, so it decodes to that command. -/
theorem opcodeMapDecodes : Obligations.OpcodeMapDecodes := by
  have hrow : ∀ {c : Word64} {i : Instr}, encode i = c → decode c = .ok i :=
    fun {c i} => (decodeIsInverseOfEncode c i).2
  exact ⟨hrow rfl, hrow rfl, hrow rfl, hrow rfl, hrow rfl, hrow rfl, hrow rfl, hrow rfl, hrow rfl,
    hrow rfl, hrow rfl, hrow rfl, hrow rfl, hrow rfl, hrow rfl, hrow rfl, hrow rfl, hrow rfl⟩

/-! ## Legal words -/

/-- The four conditions of R75 are that the word decodes, to a command that the block implements. -/
theorem legalWord_iff_decode (p : Params) (c : Word64) :
    legalWord p.hasLut c = true ↔ ∃ i, decode c = .ok i ∧ i.wellFormed p = true := by
  rw [legalWord_iff, ne_eq, ← opOfBits_eq_none_iff, ne_eq, ← widthOfBits_eq_none_iff, bit_ne_one_iff,
    ← variantOfBit_eq_lut_iff]
  constructor
  · rintro ⟨hr, ho, hw, hv⟩
    obtain ⟨o, ho⟩ := Option.ne_none_iff_exists'.1 ho
    obtain ⟨w, hw⟩ := Option.ne_none_iff_exists'.1 hw
    refine ⟨_, decode_of_fields hr ho hw, (wellFormed_iff p _).2 ?_⟩
    rw [variant_instrOf]
    exact hv.neg_resolve_left
  · rintro ⟨i, hd, hwf⟩
    obtain ⟨hr, ho, hw, hv⟩ := decode_ok_fields hd
    rw [ho, hw, hv, ← imp_iff_not_or]
    exact ⟨hr, nofun, nofun, (wellFormed_iff p i).1 hwf⟩

/-- Settles O12: the legal words are those that decode to a command the block implements, and decoding is the inverse
of encoding. -/
theorem legalWordsAreTheCommands : Obligations.LegalWordsAreTheCommands := by
  intro p c
  rw [legalWord_iff_decode]
  exact exists_congr fun i => by rw [decodeIsInverseOfEncode c i, and_comm]

/-! ## Words that are no command -/

theorem decode_of_rsvd {c : Word64} (hr : cmdRsvd c ≠ 0#59) : decode c = .error .rsvdBits := by
  rw [decode, if_pos hr]

theorem decode_of_badOp {c : Word64} (hr : cmdRsvd c = 0#59) (ho : cmdOp c = 0b11#2) :
    decode c = .error .badOp := by
  simp [decode, hr, (opOfBits_eq_none_iff _).2 ho]

theorem decode_of_badWidth {c : Word64} (hr : cmdRsvd c = 0#59) (ho : cmdOp c ≠ 0b11#2) (hw : cmdW c = 0b01#2) :
    decode c = .error .badWidth := by
  obtain ⟨o, ho⟩ := Option.ne_none_iff_exists'.1 (mt (opOfBits_eq_none_iff _).1 ho)
  simp [decode, hr, ho, (widthOfBits_eq_none_iff _).2 hw]

/-- Settles O13: an error is one of the decoder's three, and each check that fails first gives its own. -/
theorem decodeNamesFirstFailingCheck : Obligations.DecodeNamesFirstFailingCheck := by
  refine fun c e => ⟨fun h => ?_, ?_⟩
  · obtain ⟨he, hr⟩ | ⟨he, hr, ho⟩ | ⟨he, hr, ho, hw⟩ := decode_error_fields h
    · exact .inl ⟨hr, he⟩
    · exact .inr (.inl ⟨hr, ho, he⟩)
    · exact .inr (.inr ⟨hr, ho, hw, he⟩)
  · rintro (⟨hr, rfl⟩ | ⟨hr, ho, rfl⟩ | ⟨hr, ho, hw, rfl⟩)
    · exact decode_of_rsvd hr
    · exact decode_of_badOp hr ho
    · exact decode_of_badWidth hr ho hw

/-- Settles O10: the eight words have no reserved bit and OP = 0b11, the six have a legal OP and W = 0b01. -/
theorem illegalLowWordsAreNamed : Obligations.IllegalLowWordsAreNamed := by
  have hop : ∀ c ∈ [0x03#64, 0x07#64, 0x0B#64, 0x0F#64, 0x13#64, 0x17#64, 0x1B#64, 0x1F#64],
      cmdRsvd c = 0#59 ∧ cmdOp c = 0b11#2 := by
    simp [cmdRsvd, cmdOp]
  have hwidth : ∀ c ∈ [0x04#64, 0x05#64, 0x06#64, 0x14#64, 0x15#64, 0x16#64],
      cmdRsvd c = 0#59 ∧ cmdOp c ≠ 0b11#2 ∧ cmdW c = 0b01#2 := by
    simp [cmdRsvd, cmdOp, cmdW]
  refine ⟨fun c hc => ?_, fun c hc => ?_⟩
  · obtain ⟨hr, ho⟩ := hop c hc
    exact decode_of_badOp hr ho
  · obtain ⟨hr, ho, hw⟩ := hwidth c hc
    exact decode_of_badWidth hr ho hw

end Sys2Proof.Proofs
end

section
/-! PROOF. The host agent: its temporaries, and what its statements do to it and to the block (30_encoding.md R81). -/

namespace Sys2Proof.Proofs

open Sys2Proof.Machine Sys2Proof.Laws

/-! ## The host's temporaries -/

@[simp] theorem hostAgent_advance_line (h : HostAgent) : h.advance.line = h.line + 1 := rfl
@[simp] theorem hostAgent_advance_halted (h : HostAgent) : h.advance.halted = h.halted := rfl
@[simp] theorem hostAgent_get_advance (h : HostAgent) (t : Temp) : h.advance.get t = h.get t := rfl
@[simp] theorem hostAgent_set_line (h : HostAgent) (t : Temp) (v : Word64) : (h.set t v).line = h.line := rfl
@[simp] theorem hostAgent_set_halted (h : HostAgent) (t : Temp) (v : Word64) : (h.set t v).halted = h.halted := rfl

@[simp] theorem hostAgent_get_set_same (h : HostAgent) (t : Temp) (v : Word64) : (h.set t v).get t = v := by
  simp [HostAgent.get, HostAgent.set]

/-- Dropping the entries of another key leaves a lookup as it was. -/
theorem lookup_filter_ne {t u : Temp} (hne : t ≠ u) (l : List (Temp × Word64)) :
    (l.filter (fun p => decide (p.1 ≠ u))).lookup t = l.lookup t := by
  induction l with
  | nil => rfl
  | cons p l ih =>
    by_cases hp : p.1 = u
    · have hbeq : (t == p.1) = false := by simp [hp, hne]
      rw [List.filter_cons_of_neg (by simp [hp]), ih, List.lookup_cons, hbeq]
    · rw [List.filter_cons_of_pos (by simp [hp]), List.lookup_cons, List.lookup_cons, ih]

theorem hostAgent_get_set_of_ne {t u : Temp} (hne : t ≠ u) (h : HostAgent) (v : Word64) :
    (h.set u v).get t = h.get t := by
  have hbeq : (t == u) = false := by simp [hne]
  rw [HostAgent.get, HostAgent.set, List.lookup_cons, hbeq]
  exact congrArg (Option.getD · 0) (lookup_filter_ne hne h.temps)

/-! ## The host's statements -/

/-- The offsets of the six registers are aligned (10_state.md R21). -/
theorem regName_offset_aligned (r : RegName) : r.offset.toNat % 8 = 0 := by
  cases r <;> rfl

theorem regName_offset_le (r : RegName) : r.offset.toNat ≤ 0x28 := by
  cases r <;> decide

/-- The host's record of a transaction it has issued. -/
def recordIssued (h : HostAgent) (t : Transaction) : HostAgent := { h with issued := t :: h.issued }

@[simp] theorem recordIssued_line (h : HostAgent) (t : Transaction) : (recordIssued h t).line = h.line := rfl
@[simp] theorem recordIssued_halted (h : HostAgent) (t : Transaction) : (recordIssued h t).halted = h.halted := rfl
@[simp] theorem recordIssued_get (h : HostAgent) (t : Transaction) (u : Temp) : (recordIssued h t).get u = h.get u := rfl

theorem issue_of_ok {y : System} {t : Transaction} {s : State} {v : Word64} (h : transact t y.block = (s, .ok v)) :
    y.issue t = ({ y with block := answer (.ok v) s, host := recordIssued y.host t }, .ok v) := by
  simp [System.issue, serve, recordIssued, h]

theorem issue_of_err {y : System} {t : Transaction} {s : State} (h : transact t y.block = (s, .err)) :
    y.issue t = ({ y with block := answer .err s, host := (recordIssued y.host t).set .terr 1 }, .err) := by
  simp [System.issue, serve, recordIssued, h]

/-- `rd` puts the register's value into the temporary, and the block only records its response. -/
theorem hostStep_rd {y : System} {l : Option Label} {u : Temp} {r : RegName} {v : Word64}
    (hrun : y.host.halted = false) (hline : y.script[y.host.line]? = some ⟨l, .rd u r⟩)
    (hv : readRegister r.offset y.block = some v) :
    y.hostStep = some { y with
      block := answer (.ok v) y.block
      host := ((recordIssued y.host (regRead r.offset)).set u v).advance } := by
  have hlegal : legalTransaction (regRead r.offset) = true :=
    (legalTransaction_iff _).2 ⟨rfl, regName_offset_aligned r, regName_offset_le r⟩
  have hissue := issue_of_ok (y := y) (transact_read hlegal rfl hv)
  simp only [System.hostStep, hrun, hline, hissue, Response.rdata, Bool.false_eq_true, if_false]

/-- `wr` to a read-only register sets `terr`, and the block only records its response. -/
theorem hostStep_wr_readOnly {y : System} {l : Option Label} {r : RegName} {v : Operand}
    (hrun : y.host.halted = false) (hline : y.script[y.host.line]? = some ⟨l, .wr r v⟩)
    (hro : 0x10 < r.offset.toNat) :
    y.hostStep = some { y with
      block := answer .err y.block
      host := ((recordIssued y.host { kind := .write, off := r.offset, size := .eight, wdata := y.host.value v }).set
        .terr 1).advance } := by
  have hlegal : legalTransaction { kind := .write, off := r.offset, size := .eight, wdata := y.host.value v } = true :=
    (legalTransaction_iff _).2 ⟨rfl, regName_offset_aligned r, regName_offset_le r⟩
  have hissue := issue_of_err (y := y) ((transact_write hlegal rfl y.block).trans (writeRegister_readOnly hro _ _))
  simp [System.hostStep, hrun, hline, hissue]

/-- `bbs` branches to its label when the bit is set, and otherwise goes to the next line. -/
theorem hostStep_bbs {y : System} {l : Option Label} {u : Temp} {bit : Fin 64} {target : Label}
    (hrun : y.host.halted = false) (hline : y.script[y.host.line]? = some ⟨l, .bbs u bit target⟩) :
    y.hostStep = y.branch ((y.host.get u).getLsbD bit.val) target := by
  simp [System.hostStep, hrun, hline]

theorem branch_taken {y : System} {l : Label} {n : Nat} (h : y.script.find l = some n) :
    y.branch true l = some { y with host := { y.host with line := n } } := by
  simp [System.branch, h]

theorem branch_not_taken (y : System) (l : Label) :
    y.branch false l = some { y with host := y.host.advance } := rfl

/-- Settles O54: a register stands at the offset, so the read answers OK with its value, and only the one temporary
is set. -/
theorem hostReadTakesTheResponse : Obligations.HostReadTakesTheResponse := by
  intro y l n r hrun hline
  obtain ⟨v, hv⟩ := exists_readRegister (regName_offset_aligned r) (regName_offset_le r) y.block
  refine ⟨_, hostStep_rd hrun hline hv, (serve_regRead (regName_offset_aligned r) hv).symm, ?_, ?_, rfl, rfl⟩
  · rw [hv, hostAgent_get_advance, hostAgent_get_set_same]
  · have hne : Temp.terr ≠ .t n := nofun
    rw [hostAgent_get_advance, hostAgent_get_set_of_ne hne, recordIssued_get]

/-- Settles O55: the three registers stand above offset 0x10, where a write answers ERR. -/
theorem hostWriteToReadOnlySetsTerr : Obligations.HostWriteToReadOnlySetsTerr := by
  intro y l r v hrun hline hr
  have hro : 0x10 < r.offset.toNat := by
    obtain rfl | rfl | rfl := hr <;> decide
  exact ⟨_, hostStep_wr_readOnly hrun hline hro, hostAgent_get_set_same _ _ _, rfl, rfl⟩

end Sys2Proof.Proofs
end

section
/-! PROOF. A poll ends under every schedule that gives the unit the turns it still needs (30_encoding.md R82,
40_command_execution.md R99). -/

namespace Sys2Proof.Proofs

open Sys2Proof.Machine Sys2Proof.Laws

/-! ## The unit's remaining turns -/

/-- `n` unit turns are enough to end the command in flight, if there is one. -/
def TurnsSuffice (s : State) (n : Nat) : Prop := s.status.busy = true → nbytes (cmdW s.lc) ≤ s.k.val + n

theorem turnsSuffice_of_idle {s : State} (h : s.status.busy = false) (n : Nat) : TurnsSuffice s n :=
  fun hb => by simp [h] at hb

/-- A block in flight needs at least one more turn. -/
theorem idle_of_turnsSuffice_zero {s : State} (h : BlockInv s) (hn : TurnsSuffice s 0) : s.status.busy = false := by
  refine Bool.eq_false_of_not_eq_true fun hb => ?_
  have hle : nbytes (cmdW s.lc) ≤ s.k.val + 0 := hn hb
  have hlt : s.k.val < nbytes (cmdW s.lc) := h.counterInRange hb
  omega

theorem unitTurn_idle {s : State} (hb : s.status.busy = false) : unitTurn s = .next s := by
  simp [unitTurn, hb]

theorem unitTurn_keeps_blockInv {s t : State} (h : BlockInv s) (ht : unitTurn s = .next t) : BlockInv t := by
  have hchange : Changes { s with inputs := [] } t := unitTurn_changes s.inputs (.inl rfl) ht
  exact changes_keep_blockInv (blockInv_frame h _ _ [] _) hchange

/-- The turn of a busy block has a next state, and it is one of the turns that the command still needs (R99). -/
theorem unitTurn_busy {s : State} (h : BlockInv s) (hb : s.status.busy = true) :
    ∃ t, unitTurn s = .next t ∧ ∀ n, TurnsSuffice s (n + 1) → TurnsSuffice t n := by
  obtain ⟨op, hop⟩ := exists_op_of_legalWord h.legalLatched
  rw [unitTurn, if_pos hb, unitStep_eq hop h.legalLatched (h.counterInRange hb)]
  refine ⟨_, rfl, fun n hn => ?_⟩
  have hlt : s.k.val < nbytes (cmdW s.lc) := h.counterInRange hb
  split_ifs with hk
  · exact turnsSuffice_of_idle rfl n
  · intro _
    have hmore : s.k.val + 1 < nbytes (cmdW s.lc) := by omega
    have hval : (s.k + 1).val = s.k.val + 1 := val_succ_of_lt_nbytes hmore
    have hle : nbytes (cmdW s.lc) ≤ s.k.val + (n + 1) := hn hb
    change nbytes (cmdW s.lc) ≤ (s.k + 1).val + n
    omega

/-- A unit turn under the invariants: it keeps them, an idle block stays idle, and the turns needed are one fewer. -/
theorem unitTurn_progress {s : State} (h : BlockInv s) :
    ∃ t, unitTurn s = .next t ∧ BlockInv t ∧ (s.status.busy = false → t.status.busy = false) ∧
      ∀ n, TurnsSuffice s (n + 1) → TurnsSuffice t n := by
  cases hb : s.status.busy with
  | false => exact ⟨s, unitTurn_idle hb, h, fun _ => hb, fun n _ => turnsSuffice_of_idle hb n⟩
  | true =>
    obtain ⟨t, ht, hn⟩ := unitTurn_busy h hb
    exact ⟨t, ht, unitTurn_keeps_blockInv h ht, nofun, hn⟩

/-! ## The host in a poll -/

/-- Line `n` of the script begins a poll, and the poll's label leads there (R82). -/
structure PollAt (p : Script) (fresh : Label) (n : Nat) : Prop where
  read_line : p[n]? = some ⟨some fresh, .rd .tS .status⟩
  branch_line : p[n + 1]? = some ⟨none, .bbs .tS 0 fresh⟩
  label_line : p.find fresh = some n

/-- BUSY as the host's last STATUS read saw it. -/
def seenBusy (y : System) : Bool := (y.host.get .tS).getLsbD 0

/-- The host is in the poll at line `n`: at its read, or at its branch. When it has seen BUSY = 0, the block is idle:
nothing has started a command since. -/
structure InPoll (p : Script) (n : Nat) (y : System) : Prop where
  script_eq : y.script = p
  running : y.host.halted = false
  inv : BlockInv y.block
  place : y.host.line = n ∨ (y.host.line = n + 1 ∧ (seenBusy y = false → y.block.status.busy = false))

/-- At some point of the schedule the host is at the line after the poll at line `n`, and has seen BUSY = 0 of a block
that is idle. -/
def LeavesPoll (p : Script) (n : Nat) (y : System) (turns : List Turn) : Prop :=
  ∃ done left z, turns = done ++ left ∧ y.run done = some z ∧ z.host.line = n + 2 ∧ seenBusy z = false ∧
    z.block.status.busy = false ∧ z.script = p

section Poll

variable {p : Script} {fresh : Label} {n : Nat} {y : System}

theorem LeavesPoll.after_move {y1 : System} {a : Turn} {turns : List Turn} (hm : y.move a = some y1)
    (h : LeavesPoll p n y1 turns) : LeavesPoll p n y (a :: turns) := by
  obtain ⟨done, left, z, rfl, hrun, hz⟩ := h
  exact ⟨a :: done, left, z, rfl, by rw [System.run, hm]; exact hrun, hz⟩

/-- The poll's read sees the block's BUSY and takes the host to the branch; the block only records its response. -/
theorem InPoll.reads (hp : PollAt p fresh n) (h : InPoll p n y) (hl : y.host.line = n) :
    ∃ y1 v, y.move .host = some y1 ∧ InPoll p n y1 ∧ y1.host.line = n + 1 ∧
      seenBusy y1 = y.block.status.busy ∧ y1.block = answer (.ok v) y.block := by
  obtain ⟨rfl, hrun, hinv, -⟩ := h
  have hline : y.script[y.host.line]? = some ⟨some fresh, .rd .tS .status⟩ := by rw [hl]; exact hp.read_line
  have hseen : seenBusy { y with
      block := answer (.ok y.block.status.toWord) y.block
      host := ((recordIssued y.host (regRead RegName.status.offset)).set .tS y.block.status.toWord).advance } =
      y.block.status.busy := by
    rw [seenBusy, hostAgent_get_advance, hostAgent_get_set_same, getLsbD_toWord]
    rfl
  have hnext : y.host.line + 1 = n + 1 := by rw [hl]
  exact ⟨_, _, hostStep_rd hrun hline rfl,
    ⟨rfl, hrun, blockInv_frame hinv _ _ _ _, .inr ⟨hnext, fun hs => hseen.symm.trans hs⟩⟩, hnext, hseen, rfl⟩

/-- At the poll's branch the host goes where the BUSY that it has seen sends it. -/
theorem InPoll.branches (hp : PollAt p fresh n) (h : InPoll p n y) (hl : y.host.line = n + 1) :
    y.move .host = y.branch (seenBusy y) fresh := by
  obtain ⟨rfl, hrun, -, -⟩ := h
  exact hostStep_bbs hrun (by rw [hl]; exact hp.branch_line)

/-- The branch of a host that has seen BUSY = 1 goes back to the read. -/
theorem InPoll.goes_back (hp : PollAt p fresh n) (h : InPoll p n y) (hl : y.host.line = n + 1)
    (hs : seenBusy y = true) :
    ∃ y1, y.move .host = some y1 ∧ InPoll p n y1 ∧ y1.host.line = n ∧ y1.block = y.block := by
  have hmove : y.move .host = y.branch (seenBusy y) fresh := h.branches hp hl
  obtain ⟨rfl, hrun, hinv, -⟩ := h
  rw [hmove, hs, branch_taken hp.label_line]
  exact ⟨_, rfl, ⟨rfl, hrun, hinv, .inl rfl⟩, rfl, rfl⟩

/-- The branch of a host that has seen BUSY = 0 leaves the poll. -/
theorem InPoll.leaves_of_seen_idle (hp : PollAt p fresh n) (h : InPoll p n y) (hl : y.host.line = n + 1)
    (hs : seenBusy y = false) (hb : y.block.status.busy = false) (rest : List Turn) :
    LeavesPoll p n y (.host :: rest) := by
  have hmove : y.move .host = y.branch (seenBusy y) fresh := h.branches hp hl
  obtain ⟨rfl, -, -, -⟩ := h
  rw [hs, branch_not_taken] at hmove
  exact .after_move hmove ⟨[], rest, _, rfl, rfl, congrArg (· + 1) hl, hs, hb, rfl⟩

/-- From the read on an idle block the host leaves in two statements. -/
theorem InPoll.leaves_of_idle (hp : PollAt p fresh n) (h : InPoll p n y) (hl : y.host.line = n)
    (hb : y.block.status.busy = false) (rest : List Turn) : LeavesPoll p n y (.host :: .host :: rest) := by
  obtain ⟨y1, v, hmove, hin, hl1, hseen, hblock⟩ := h.reads hp hl
  have hb1 : y1.block.status.busy = false := by rw [hblock, answer_status, hb]
  exact .after_move hmove (hin.leaves_of_seen_idle hp hl1 (hseen.trans hb) hb1 rest)

/-- Three host statements leave the poll of an idle block: back to the read if need be, the read, the branch. -/
theorem InPoll.leaves_within_three (hp : PollAt p fresh n) (h : InPoll p n y) (hb : y.block.status.busy = false) :
    LeavesPoll p n y [.host, .host, .host] := by
  obtain hl | ⟨hl, -⟩ := h.place
  · exact h.leaves_of_idle hp hl hb _
  · cases hs : seenBusy y with
    | false => exact h.leaves_of_seen_idle hp hl hs hb _
    | true =>
      obtain ⟨y1, hmove, hin, hl1, hblock⟩ := h.goes_back hp hl hs
      exact .after_move hmove (hin.leaves_of_idle hp hl1 (by rw [hblock, hb]) _)

/-- A host turn stays in the poll without disturbing the command in flight, unless it leaves the poll. -/
theorem InPoll.host_turn (hp : PollAt p fresh n) (h : InPoll p n y) :
    (∃ y1, y.move .host = some y1 ∧ InPoll p n y1 ∧ ∀ m, TurnsSuffice y.block m → TurnsSuffice y1.block m) ∨
      ∀ rest, LeavesPoll p n y (.host :: rest) := by
  obtain hl | ⟨hl, hidle⟩ := h.place
  · obtain ⟨y1, v, hmove, hin, -, -, hblock⟩ := h.reads hp hl
    exact .inl ⟨y1, hmove, hin, fun m hm => by rw [hblock]; exact hm⟩
  · cases hs : seenBusy y with
    | false => exact .inr (h.leaves_of_seen_idle hp hl hs (hidle hs))
    | true =>
      obtain ⟨y1, hmove, hin, -, hblock⟩ := h.goes_back hp hl hs
      exact .inl ⟨y1, hmove, hin, fun m hm => by rw [hblock]; exact hm⟩

/-- A unit turn leaves the host where it is in the poll. -/
theorem InPoll.unit_turn (h : InPoll p n y) :
    ∃ y1, y.move .unit = some y1 ∧ InPoll p n y1 ∧ ∀ m, TurnsSuffice y.block (m + 1) → TurnsSuffice y1.block m := by
  obtain ⟨hscript, hrun, hinv, hplace⟩ := h
  obtain ⟨t, ht, hinv', hidle, hn⟩ := unitTurn_progress hinv
  have hmove : y.move .unit = some { y with block := t } := by rw [System.move, ht]
  exact ⟨_, hmove, ⟨hscript, hrun, hinv', hplace.imp_right (And.imp_right (hidle ∘ ·))⟩, hn⟩

/-- The host leaves the poll on a schedule with the unit's remaining turns, or in three more of its own statements. -/
theorem InPoll.leaves (hp : PollAt p fresh n) {turns : List Turn} (hturns : ∀ a ∈ turns, a = .host ∨ a = .unit)
    (h : InPoll p n y) (hn : TurnsSuffice y.block (turns.count .unit)) :
    LeavesPoll p n y (turns ++ [.host, .host, .host]) := by
  induction turns generalizing y with
  | nil => exact h.leaves_within_three hp (idle_of_turnsSuffice_zero h.inv hn)
  | cons a turns ih =>
    obtain ⟨ha, hrest⟩ := List.forall_mem_cons.1 hturns
    obtain rfl | rfl := ha
    · obtain ⟨y1, hmove, hin, hkeep⟩ | hleaves := h.host_turn hp
      · have hne : Turn.host ≠ .unit := nofun
        rw [List.count_cons_of_ne hne] at hn
        exact .after_move hmove (ih hrest hin (hkeep _ hn))
      · exact hleaves _
    · obtain ⟨y1, hmove, hin, hfewer⟩ := h.unit_turn
      rw [List.count_cons_self] at hn
      exact .after_move hmove (ih hrest hin (hfewer _ hn))

end Poll

/-- Settles O56: the host stands at the poll's read, so it is in the poll and leaves it. -/
theorem pollEnds : Obligations.PollEnds := by
  intro y fresh turns hinv hrun hread hbranch hlabel hturns hn
  have hpoll : PollAt y.script fresh y.host.line := ⟨hread, hbranch, hlabel⟩
  have hin : InPoll y.script y.host.line y := ⟨rfl, hrun, hinv, .inl rfl⟩
  exact hin.leaves hpoll hturns hn

end Sys2Proof.Proofs
end

section
/-! PROOF. Issue and the unit step: what a CMD write does, and what the unit's turn does (40_command_execution.md R90 to
R95, R100). -/

namespace Sys2Proof.Proofs

open Sys2Proof.Machine Sys2Proof.Laws

/-! ## A CMD write -/

/-- The step of a CMD write that is rejected. -/
theorem step_cmdWrite_rejected {s : State} {c : Word64} {rest : List Event} {e : ErrCode}
    (hi : s.inputs = .txn (cmdWrite c) :: rest) (hr : rejection s c = some e) :
    step s = .next (answer (.ok 0) (reject e { s with inputs := rest })) := by
  have hr' : rejection { s with inputs := rest } c = some e := hr
  rw [step_txn hi, serve_cmdWrite, issue, hr']

/-- The step of a CMD write that is accepted. -/
theorem step_cmdWrite_accepted {s : State} {c : Word64} {rest : List Event}
    (hi : s.inputs = .txn (cmdWrite c) :: rest) (hb : s.status.busy = false)
    (hl : legalWord s.params.hasLut c = true) :
    step s = .next (answer (.ok 0) (accept c { s with inputs := rest })) := by
  rw [step_txn hi, serve_cmdWrite_accepted (s := { s with inputs := rest }) hb hl]

/-- Settles O22: the step is acceptance and its response. -/
theorem legalCmdWriteIsAccepted : Obligations.LegalCmdWriteIsAccepted :=
  fun _ _ _ hi hb hl => step_cmdWrite_accepted hi hb hl

/-- Settles O23: in each of the five cases the checks before it pass and its own fails, which gives its code. -/
theorem cmdWriteIsRejectedByFirstFailingCheck : Obligations.CmdWriteIsRejectedByFirstFailingCheck := by
  intro s c rest e hi h
  refine step_cmdWrite_rejected hi ?_
  obtain ⟨hb, rfl⟩ | ⟨hb, hr, rfl⟩ | ⟨hb, hr, ho, rfl⟩ | ⟨hb, hr, ho, hw, rfl⟩ | ⟨hb, hr, ho, hw, hv, hlut, rfl⟩ := h
  · simp [rejection, hb]
  · simp [rejection, hb, hr]
  · simp [rejection, hb, hr, ho]
  · simp [rejection, hb, hr, ho, hw]
  · simp [rejection, hb, hr, ho, hw, hv, hlut]

/-! ## The unit's turn -/

/-- Settles O33: the unit is next, and the turn of an idle block does nothing. -/
theorem quiescentBlockKeepsItsState : Obligations.QuiescentBlockKeepsItsState :=
  fun _ hb hn => (step_nextIsUnit hn).trans (unitTurn_idle hb)

/-- The unit's turn is the same whatever the operand registers hold, and leaves them as they are. -/
theorem unitTurn_set_operands {s t : State} (x y : Word64) (h : unitTurn s = .next t) :
    unitTurn { s with opa := x, opb := y } = .next { t with opa := x, opb := y } := by
  cases hb : s.status.busy with
  | false =>
    rw [unitTurn_idle hb] at h
    cases h
    exact unitTurn_idle hb
  | true =>
    rw [unitTurn, if_pos hb] at h ⊢
    obtain ⟨op, hop, hl, hk, ⟨hlast, rfl⟩ | ⟨hmore, rfl⟩⟩ := unitStep_cases h
    · rw [unitStep_eq (s := { s with opa := x, opb := y }) hop hl hk, if_pos hlast]
      rfl
    · rw [unitStep_eq (s := { s with opa := x, opb := y }) hop hl hk, if_neg hmore]
      rfl

/-- Settles O34: the step is the unit's turn, which does not depend on the operand registers. -/
theorem unitNeverReadsOperandRegisters : Obligations.UnitNeverReadsOperandRegisters := by
  intro s t x y hn hs
  rw [step_nextIsUnit hn] at hs
  have hn' : State.nextIsUnit { s with opa := x, opb := y } := hn
  rw [step_nextIsUnit hn']
  exact unitTurn_set_operands x y hs

/-- The unit's step on a legal command in flight whose counter is in range: one more byte in ACC, and completion at the
last. -/
theorem step_unit {s : State} {op : Op} (hb : s.status.busy = true) (hn : s.nextIsUnit)
    (hop : opOfBits (cmdOp s.lc) = some op) (hl : legalWord s.params.hasLut s.lc = true)
    (hk : s.k.val < nbytes (cmdW s.lc)) :
    step s = .next
      (if s.k.val + 1 = nbytes (cmdW s.lc) then
        complete { s with acc := pushByte s.acc (unitByte s op), inputs := s.inputs.tail }
       else { s with acc := pushByte s.acc (unitByte s op), k := s.k + 1, inputs := s.inputs.tail }) := by
  rw [step_nextIsUnit hn, unitTurn, if_pos hb, unitStep_eq (s := { s with inputs := s.inputs.tail }) hop hl hk]
  rfl

/-- The accumulator's shift as a shift of the word (R93). -/
theorem pushByte_eq_shiftLeft_or (acc : Word64) (r : Byte) : pushByte acc r = (acc <<< 8) ||| r.setWidth 64 := by
  refine BitVec.eq_of_getLsbD_eq fun i hi => ?_
  rw [getLsbD_pushByte acc r i hi, BitVec.getLsbD_or, BitVec.getLsbD_shiftLeft, BitVec.getLsbD_setWidth]
  split_ifs with h8
  · simp [h8, hi]
  · have htop : r.getLsbD i = false := BitVec.getLsbD_of_ge r i (by omega)
    simp only [h8, hi, htop, decide_true, decide_false, Bool.not_false, Bool.true_and, Bool.and_false, Bool.or_false]

/-- Settles O32: the step is the unit's, with the shift of the accumulator written as a shift of the word. -/
theorem unitStepProcessesOneByte : Obligations.UnitStepProcessesOneByte := by
  intro s op hinv hb hn hop
  have hs := step_unit hb hn hop hinv.legalLatched (hinv.counterInRange hb)
  rw [pushByte_eq_shiftLeft_or] at hs
  exact hs

end Sys2Proof.Proofs
end

section
/-! PROOF. The commands as atomic steps: what they leave unchanged (R90, R91, R160, R181), and the word function they
compute (R98, R180). -/

namespace Sys2Proof.Proofs

open Sys2Proof.Machine Sys2Proof.Laws

/-- The word of a command is legal exactly in the blocks that implement the command (30_encoding.md R75). -/
theorem legalWord_encode_iff (p : Params) (i : Instr) :
    legalWord p.hasLut (encode i) = true ↔ i.wellFormed p = true := by
  rw [legalWord_iff_decode, decode_encode]
  simp

/-- Settles O21: a rejection touches ERR and ECODE only; a command that ran found the block idle and implemented. -/
theorem commandsKeepTheirFrame : Obligations.CommandsKeepTheirFrame := by
  intro i s t h
  obtain ⟨e, -, rfl⟩ | ⟨hr, rfl⟩ := exec_cases h
  · exact ⟨rfl, rfl, rfl, rfl, rfl, fun _ => ⟨rfl, rfl, rfl, rfl, rfl, rfl, rfl, rfl⟩⟩
  · obtain ⟨hidle, hlegal⟩ := (rejection_eq_none_iff s (encode i)).1 hr
    have hwf : i.wellFormed s.params = true := (legalWord_encode_iff s.params i).1 hlegal
    refine ⟨rfl, rfl, rfl, rfl, rfl, fun hrejected => ?_⟩
    simp [hidle, hwf] at hrejected

/-- Settles O51: the byte primitive is native, and so is the word function that it makes. -/
theorem wordFunctionIsNative : Obligations.WordFunctionIsNative :=
  fun op v w a b => wordOp_eq_nativeResult op v (widthBytes w) a b

end Sys2Proof.Proofs
end

section
/-! PROOF. The run of an accepted command: its state after each unit step, its end after NBYTES(W) of them, and the same
end for the atomic event (R96, R98, R99). -/

namespace Sys2Proof.Proofs

open Sys2Proof.Machine Sys2Proof.Laws

/-! ## The state after each unit step -/

/-- The just accepted block `s` after the first `m` bytes of its command, with `ins` pending: the word function's loop
stands in ACC (44_word_commands.md R180). -/
def afterBytes (s : State) (op : Op) (m : Nat) (ins : List Event) : State :=
  { s with
    acc := serialBytes (byteOp op (variantOfBit (cmdV s.lc))) (nbytes (cmdW s.lc)) s.la s.lb m
    k := Fin.ofNat 8 m
    inputs := ins }

/-- A block as an accepted CMD write of a word with operation `op` leaves it (R90). -/
structure JustAccepted (s : State) (op : Op) : Prop where
  busy : s.status.busy = true
  legal : legalWord s.params.hasLut s.lc = true
  op_eq : opOfBits (cmdOp s.lc) = some op
  k_eq : s.k = 0
  acc_eq : s.acc = 0

theorem justAccepted_accept {s : State} {c : Word64} {op : Op} (hl : legalWord s.params.hasLut c = true)
    (hop : opOfBits (cmdOp c) = some op) (ins : List Event) (r : Response) :
    JustAccepted (answer r (accept c { s with inputs := ins })) op :=
  ⟨rfl, hl, hop, rfl, rfl⟩

theorem JustAccepted.afterBytes_zero {s : State} {op : Op} (h : JustAccepted s op) :
    afterBytes s op 0 s.inputs = s := by
  obtain ⟨params, opa, opb, res, lc, la, lb, k, acc, status, inputs, answers⟩ := s
  obtain ⟨-, -, -, hk, hacc⟩ := h
  cases hk
  cases hacc
  rfl

/-- The counter holds every number of bytes below the command's. -/
theorem afterBytes_k {s : State} (op : Op) {m : Nat} (hm : m < nbytes (cmdW s.lc)) (ins : List Event) :
    (afterBytes s op m ins).k.val = m := by
  have hle : nbytes (cmdW s.lc) ≤ 8 := nbytes_le _
  exact Nat.mod_eq_of_lt (by omega)

/-- The unit's byte is the next turn of the loop. -/
theorem pushByte_afterBytes {s : State} (op : Op) {m : Nat} (hm : m < nbytes (cmdW s.lc)) (ins : List Event) :
    pushByte (afterBytes s op m ins).acc (unitByte (afterBytes s op m ins) op) =
      (afterBytes s op (m + 1) ins).acc := by
  rw [unitByte_eq, afterBytes_k op hm]
  rfl

/-- A unit step goes from `m` bytes to `m + 1`, and completes the command when they are all. -/
theorem JustAccepted.step_afterBytes {s : State} {op : Op} (h : JustAccepted s op) {m : Nat}
    (hm : m < nbytes (cmdW s.lc)) {ins : List Event} (hn : (afterBytes s op m ins).nextIsUnit) :
    step (afterBytes s op m ins) = .next
      (if m + 1 = nbytes (cmdW s.lc) then complete (afterBytes s op (m + 1) ins.tail)
       else afterBytes s op (m + 1) ins.tail) := by
  have hk : (afterBytes s op m ins).k.val = m := afterBytes_k op hm ins
  have hs := step_unit (s := afterBytes s op m ins) h.busy hn h.op_eq h.legal (hk.trans_lt hm)
  rw [pushByte_afterBytes op hm, hk] at hs
  have hnext : (afterBytes s op m ins).k + 1 = Fin.ofNat 8 (m + 1) := by
    apply Fin.ext
    rw [Fin.val_add, hk]
    rfl
  rw [hnext] at hs
  exact hs

/-! ## The run -/

/-- Each of the next `m` events is the unit's: its turn, or nothing pending any more. -/
def UnitsTurns (m : Nat) (ins : List Event) : Prop := ∀ j, j < m → ∀ e, ins[j]? = some e → e = .unitTurn

theorem unitsTurns_nil (m : Nat) : UnitsTurns m [] := by
  simp [UnitsTurns]

theorem unitsTurns_replicate (m : Nat) (rest : List Event) :
    UnitsTurns m (List.replicate m .unitTurn ++ rest) := by
  intro j hj e he
  rw [List.getElem?_append_left (by simpa using hj), List.getElem?_replicate_of_lt hj] at he
  exact (Option.some.inj he).symm

/-- After some of the events the next is still the unit's. -/
theorem UnitsTurns.drop_nextIsUnit {m j : Nat} {ins : List Event} (h : UnitsTurns m ins) (hj : j < m) {s : State}
    (hs : s.inputs = ins.drop j) : s.nextIsUnit := by
  cases hd : ins.drop j with
  | nil => exact .inl (hs.trans hd)
  | cons e rest =>
    have he : ins[j]? = some e := by rw [← List.head?_drop, hd, List.head?_cons]
    obtain rfl := h j hj e he
    exact .inr ⟨rest, hs.trans hd⟩

/-- While the command is in flight, `m` unit steps work through its first `m` bytes. -/
theorem JustAccepted.run {s : State} {op : Op} (h : JustAccepted s op) {m : Nat} (hm : m < nbytes (cmdW s.lc))
    (hu : UnitsTurns m s.inputs) : runSteps m s = .next (afterBytes s op m (s.inputs.drop m)) := by
  induction m with
  | zero => rw [List.drop_zero, h.afterBytes_zero, runSteps_zero]
  | succ m ih =>
    have hrun := ih (by omega) fun j hj => hu j (by omega)
    have hstep := h.step_afterBytes (m := m) (by omega) (hu.drop_nextIsUnit m.lt_succ_self rfl)
    rw [if_neg (by omega), List.tail_drop] at hstep
    rw [runSteps_add hrun, runSteps_succ hstep, runSteps_zero]

/-- The last of NBYTES(W) unit steps completes the command (R99). -/
theorem JustAccepted.run_to_completion {s : State} {op : Op} (h : JustAccepted s op)
    (hu : UnitsTurns (nbytes (cmdW s.lc)) s.inputs) :
    runSteps (nbytes (cmdW s.lc)) s =
      .next (complete (afterBytes s op (nbytes (cmdW s.lc)) (s.inputs.drop (nbytes (cmdW s.lc))))) := by
  obtain ⟨m, hm⟩ := Nat.exists_eq_add_one.2 (nbytes_pos (cmdW s.lc))
  have hlt : m < nbytes (cmdW s.lc) := by omega
  have hrun := h.run hlt fun j hj => hu j (by omega)
  have hstep := h.step_afterBytes hlt (hu.drop_nextIsUnit hlt rfl)
  rw [if_pos hm.symm, List.tail_drop] at hstep
  rw [hm, runSteps_add hrun, runSteps_succ hstep, runSteps_zero]

/-- Settles O35: the block is busy after each of the first unit steps and done after the last, when ACC holds the whole
word function, which is native. -/
theorem acceptedCommandEndsAfterItsBytes : Obligations.AcceptedCommandEndsAfterItsBytes := by
  intro s c op hi hb hl hop
  have haccept := step_cmdWrite_accepted hi hb hl
  have hjust := justAccepted_accept hl hop [] (.ok 0)
  refine ⟨fun m hm => ?_, ?_⟩
  · exact ⟨_, (runSteps_succ haccept).trans (hjust.run hm (unitsTurns_nil m)), rfl, rfl⟩
  · exact ⟨_, (runSteps_succ haccept).trans (hjust.run_to_completion (unitsTurns_nil _)), rfl, rfl, rfl,
      wordOp_eq_nativeResult op _ _ s.opa s.opb⟩

/-! ## The atomic event -/

/-- The event of a word that decodes runs its command (log entry 3). -/
theorem step_command_of_ok {s : State} {c : Word64} {rest : List Event} {i : Instr}
    (hi : s.inputs = .command c :: rest) (hd : decode c = .ok i) :
    step s = exec i (answer (.ok 0) { s with inputs := rest }) := by
  simp only [step, hi, handle, hd]

/-- The event of a word that does not decode is its CMD write. -/
theorem step_command_of_error {s : State} {c : Word64} {rest : List Event} {e : ErrCode}
    (hi : s.inputs = .command c :: rest) (hd : decode c = .error e) :
    step s = .next (issue c (answer (.ok 0) { s with inputs := rest })) := by
  simp only [step, hi, handle, hd]

/-- A rejected word's atomic event does what its CMD write does. -/
theorem step_command_rejected {s : State} {c : Word64} {rest : List Event} {e : ErrCode}
    (hi : s.inputs = .command c :: rest) (hr : rejection s c = some e) :
    step s = .next (answer (.ok 0) (reject e { s with inputs := rest })) := by
  have hr' : rejection (answer (.ok 0) { s with inputs := rest }) c = some e := hr
  cases hd : decode c with
  | ok i =>
    obtain rfl := encode_of_decode hd
    rw [step_command_of_ok hi hd, exec_eq, hr']
    rfl
  | error e' =>
    rw [step_command_of_error hi hd, issue, hr']
    rfl

/-- A legal word's atomic event on an idle block is acceptance and completion, with the word function in ACC. -/
theorem step_command_accepted {s : State} {i : Instr} {rest : List Event}
    (hi : s.inputs = .command (encode i) :: rest) (hb : s.status.busy = false)
    (hl : legalWord s.params.hasLut (encode i) = true) :
    step s = .next (complete { accept (encode i) (answer (.ok 0) { s with inputs := rest }) with
      acc := wordOp (byteOp i.op i.variant) (widthBytes i.width) s.opa s.opb }) := by
  have hr : rejection (answer (.ok 0) { s with inputs := rest }) (encode i) = none :=
    (rejection_eq_none_iff _ _).2 ⟨hb, hl⟩
  rw [step_command_of_ok hi (decode_encode i), exec_eq, hr]
  rfl

/-- The completion of command `i` after all its bytes leaves the word function that `exec` computes. -/
theorem complete_afterBytes_encode {s : State} {i : Instr} (h : s.lc = encode i) (ins : List Event) :
    complete (afterBytes s i.op (nbytes (cmdW s.lc)) ins) =
      complete { s with acc := wordOp (byteOp i.op i.variant) (widthBytes i.width) s.la s.lb, inputs := ins } := by
  obtain ⟨-, -, -, hv⟩ := encode_fields i
  simp only [complete, afterBytes, wordOp, h, hv, nbytes_encode]

/-- The CMD write of a command that an idle block implements, and its unit turns, reach the state that the atomic event
reaches. -/
theorem runSteps_cmdWrite_encode {s : State} {i : Instr} (rest : List Event) (hb : s.status.busy = false)
    (hl : legalWord s.params.hasLut (encode i) = true) :
    runSteps (nbytes (cmdW (encode i)) + 1) { s with
        inputs := .txn (cmdWrite (encode i)) :: (List.replicate (nbytes (cmdW (encode i))) Event.unitTurn ++ rest) } =
      .next (complete { accept (encode i) (answer (.ok 0) { s with inputs := rest }) with
        acc := wordOp (byteOp i.op i.variant) (widthBytes i.width) s.opa s.opb }) := by
  have hjust := justAccepted_accept hl (opOfBits_encode i)
    (List.replicate (nbytes (cmdW (encode i))) .unitTurn ++ rest) (.ok 0)
  have hrun := hjust.run_to_completion (unitsTurns_replicate _ _)
  rw [complete_afterBytes_encode rfl] at hrun
  rw [runSteps_succ (step_cmdWrite_accepted (s := { s with inputs := _ }) rfl hb hl)]
  refine hrun.trans ?_
  simp [answer, accept]

/-- Settles O38: an accepted word's unit steps end in the state that the atomic event computes at once; a rejected
word's event and CMD write are the same rejection. -/
theorem atomicCommandRefinesUnitSteps : Obligations.AtomicCommandRefinesUnitSteps := by
  intro s c rest
  refine ⟨fun hb hl => ?_, fun hrejected => ?_⟩
  · obtain ⟨i, hd, -⟩ := (legalWord_iff_decode s.params c).1 hl
    obtain rfl := encode_of_decode hd
    rw [Nat.add_comm, runSteps_cmdWrite_encode rest hb hl,
      runSteps_succ (step_command_accepted (s := { s with inputs := _ }) rfl hb hl)]
    rfl
  · have hne : rejection s c ≠ none := by
      rw [ne_eq, rejection_eq_none_iff]
      rintro ⟨hb, hl⟩
      simp [hb, hl] at hrejected
    obtain ⟨e, hr⟩ := Option.ne_none_iff_exists'.1 hne
    rw [runSteps_succ (step_command_rejected (s := { s with inputs := _ }) rfl hr),
      runSteps_succ (step_cmdWrite_rejected (s := { s with inputs := _ }) rfl hr)]

end Sys2Proof.Proofs
end

section
/-! PROOF. Transactions do not disturb a command in flight, and its result does not depend on how they interleave with
its unit steps (R91, R96, R98, R99). -/

namespace Sys2Proof.Proofs

open Sys2Proof.Machine Sys2Proof.Laws

/-- An event that the host brings to the port: a transaction or a bus access. -/
def HostEvent (e : Event) : Prop := (∃ x, e = .txn x) ∨ ∃ a, e = .bus a

theorem not_nextIsUnit_of_hostEvent {s : State} {e : Event} {rest : List Event} (hi : s.inputs = e :: rest)
    (he : HostEvent e) : ¬ s.nextIsUnit := by
  rintro (hn | ⟨r, hn⟩) <;> rw [hi] at hn
  · cases hn
  · obtain ⟨x, rfl⟩ | ⟨a, rfl⟩ := he <;> cases hn

/-- Settles O36: of the changes, the unit's, the atomic command's and reset's are no host event's, and an acceptance
needs an idle block. -/
theorem transactionsLeaveCommandInFlightAlone : Obligations.TransactionsLeaveCommandInFlightAlone := by
  intro s t rest hb he hs
  obtain ⟨e, hi, he⟩ : ∃ e, s.inputs = e :: rest ∧ HostEvent e := by
    obtain ⟨x, hi⟩ | ⟨a, hi⟩ := he
    · exact ⟨_, hi, .inl ⟨x, rfl⟩⟩
    · exact ⟨_, hi, .inr ⟨a, rfl⟩⟩
  have haccepts : ∀ c, rejection s c ≠ none := fun c hr => by
    obtain ⟨hidle, -⟩ := (rejection_eq_none_iff s c).1 hr
    simp [hb] at hidle
  cases step_changes hs with
  | nothing | operandA | operandB | rejected => exact ⟨rfl, rfl, rfl, rfl, rfl, rfl, hb, rfl⟩
  | accepted c _ _ _ hr => exact absurd hr (haccepts c)
  | ran i _ _ _ hr => exact absurd hr (haccepts (encode i))
  | unit _ _ hn | completed _ _ hn => exact absurd hn (not_nextIsUnit_of_hostEvent hi he)
  | reset _ hn =>
    obtain ⟨r, hn⟩ := hn
    obtain ⟨x, rfl⟩ | ⟨a, rfl⟩ := he <;> cases hi.symm.trans hn

/-! ## Interleavings -/

@[simp] theorem serve_inputs (t : Transaction) (s : State) : (serve t s).inputs = s.inputs := by
  rw [serve, answer_inputs, transact_inputs]

@[simp] theorem serveBus_inputs (a : BusAccess) (s : State) : (serveBus a s).inputs = s.inputs := by
  rw [serveBus]
  split
  · rw [serve_inputs]
  · rfl

/-- A host event is served in one step, which takes it off the port. -/
theorem step_hostEvent {s : State} {e : Event} {rest : List Event} (hi : s.inputs = e :: rest) (he : HostEvent e) :
    ∃ t, step s = .next t ∧ t.inputs = rest := by
  obtain ⟨x, rfl⟩ | ⟨a, rfl⟩ := he
  · exact ⟨_, step_txn hi, serve_inputs x _⟩
  · exact ⟨_, step_bus hi, serveBus_inputs a _⟩

/-- In `t` the command that `s` has in flight still needs `n` unit steps, on the operands latched in `s`. -/
structure NeedsTurns (s t : State) (n : Nat) : Prop where
  inv : BlockInv t
  result : ResultInv t
  busy : t.status.busy = true
  lc_eq : t.lc = s.lc
  la_eq : t.la = s.la
  lb_eq : t.lb = s.lb
  turns : t.k.val + n = nbytes (cmdW s.lc)

/-- `t` is done with the command of `s`, and nothing is pending. -/
structure DoneWith (s t : State) (op : Op) : Prop where
  busy : t.status.busy = false
  done : t.status.done = true
  lc_eq : t.lc = s.lc
  la_eq : t.la = s.la
  lb_eq : t.lb = s.lb
  inputs : t.inputs = []
  res_eq : t.res = nativeResult op (nbytes (cmdW s.lc)) s.la s.lb

section Interleaving

variable {s t : State} {op : Op} {n : Nat} {rest : List Event}

/-- A host event leaves the command as far as it was. -/
theorem NeedsTurns.host_step {e : Event} (h : NeedsTurns s t n) (hi : t.inputs = e :: rest) (he : HostEvent e) :
    ∃ u, step t = .next u ∧ u.inputs = rest ∧ NeedsTurns s u n := by
  obtain ⟨u, hu, hins⟩ := step_hostEvent hi he
  have hhost : (∃ x, t.inputs = .txn x :: rest) ∨ (∃ a, t.inputs = .bus a :: rest) := by
    obtain ⟨x, rfl⟩ | ⟨a, rfl⟩ := he
    · exact .inl ⟨x, hi⟩
    · exact .inr ⟨a, hi⟩
  obtain ⟨hlc, hla, hlb, hk, -, -, hbusy, -⟩ := transactionsLeaveCommandInFlightAlone t u rest h.busy hhost hu
  exact ⟨u, hu, hins, stepKeepsInvariant t u h.inv hu, stepKeepsResultInvariant t u h.inv h.result hu, hbusy,
    hlc.trans h.lc_eq, hla.trans h.la_eq, hlb.trans h.lb_eq, by rw [hk]; exact h.turns⟩

/-- The unit's turn, as far as the command is concerned. -/
theorem NeedsTurns.unit_step (h : NeedsTurns s t n) (hop : opOfBits (cmdOp s.lc) = some op)
    (hi : t.inputs = .unitTurn :: rest) :
    step t = .next
      (if t.k.val + 1 = nbytes (cmdW s.lc) then
        complete { t with acc := pushByte t.acc (unitByte t op), inputs := rest }
       else { t with acc := pushByte t.acc (unitByte t op), k := t.k + 1, inputs := rest }) := by
  rw [step_unit h.busy (.inr ⟨rest, hi⟩) (h.lc_eq ▸ hop) h.inv.legalLatched (h.inv.counterInRange h.busy), hi,
    List.tail_cons, h.lc_eq]

/-- A turn that is not the last leaves one fewer. -/
theorem NeedsTurns.turn (h : NeedsTurns s t (n + 2)) (hop : opOfBits (cmdOp s.lc) = some op)
    (hi : t.inputs = .unitTurn :: rest) : ∃ u, step t = .next u ∧ u.inputs = rest ∧ NeedsTurns s u (n + 1) := by
  have hturns : t.k.val + (n + 2) = nbytes (cmdW s.lc) := h.turns
  have hu := h.unit_step hop hi
  rw [if_neg (by omega)] at hu
  have hval : (t.k + 1).val = t.k.val + 1 := val_succ_of_lt_nbytes (w := cmdW s.lc) (by omega)
  refine ⟨_, hu, rfl, stepKeepsInvariant _ _ h.inv hu, stepKeepsResultInvariant _ _ h.inv h.result hu, h.busy,
    h.lc_eq, h.la_eq, h.lb_eq, ?_⟩
  change (t.k + 1).val + (n + 1) = nbytes (cmdW s.lc)
  omega

/-- The last turn ends the command, with its native result by the data path's invariant. -/
theorem NeedsTurns.last_turn (h : NeedsTurns s t 1) (hop : opOfBits (cmdOp s.lc) = some op)
    (hi : t.inputs = [.unitTurn]) : ∃ u, step t = .next u ∧ DoneWith s u op := by
  have hu := h.unit_step hop hi
  rw [if_pos h.turns] at hu
  refine ⟨_, hu, rfl, rfl, h.lc_eq, h.la_eq, h.lb_eq, rfl, ?_⟩
  have hres := (stepKeepsResultInvariant _ _ h.inv h.result hu).finalResult op (h.lc_eq ▸ hop) rfl
  rw [← h.lc_eq, ← h.la_eq, ← h.lb_eq]
  exact hres

/-- Under every interleaving with exactly the remaining turns, the last event being the last of them, the command ends
with its native result. -/
theorem NeedsTurns.ends {es : List Event} (h : NeedsTurns s t (es.count .unitTurn + 1))
    (hop : opOfBits (cmdOp s.lc) = some op) (hes : ∀ e ∈ es, HostEvent e ∨ e = .unitTurn)
    (hi : t.inputs = es ++ [.unitTurn]) : ∃ u, runSteps (es.length + 1) t = .next u ∧ DoneWith s u op := by
  induction es generalizing t with
  | nil =>
    obtain ⟨u, hu, hdone⟩ := h.last_turn hop hi
    exact ⟨u, runSteps_succ hu, hdone⟩
  | cons e es ih =>
    obtain ⟨he, hrest⟩ := List.forall_mem_cons.1 hes
    obtain ⟨u, hu, hins, hneeds⟩ : ∃ u, step t = .next u ∧ u.inputs = es ++ [.unitTurn] ∧
        NeedsTurns s u (es.count .unitTurn + 1) := by
      obtain he | rfl := he
      · have hne : e ≠ .unitTurn := by rintro rfl; obtain ⟨x, hx⟩ | ⟨a, ha⟩ := he <;> contradiction
        rw [List.count_cons_of_ne hne] at h
        exact h.host_step hi he
      · rw [List.count_cons_self] at h
        exact h.turn hop hi
    obtain ⟨v, hv, hdone⟩ := ih hneeds hrest hins
    exact ⟨v, (runSteps_succ hu).trans hv, hdone⟩

end Interleaving

/-- Settles O37: the command in flight needs exactly the turns that the list has. -/
theorem resultIndependentOfInterleaving : Obligations.ResultIndependentOfInterleaving := by
  intro s op es hinv hres hb hop hes hk hi
  have hneeds : NeedsTurns s s (es.count .unitTurn + 1) := ⟨hinv, hres, hb, rfl, rfl, rfl, hk⟩
  obtain ⟨t, hrun, hdone⟩ := hneeds.ends hop (fun e he => (or_assoc.2 (hes e he))) hi
  exact ⟨t, hrun, hdone.busy, hdone.done, hdone.lc_eq, hdone.la_eq, hdone.lb_eq, hdone.inputs, hdone.res_eq⟩

end Sys2Proof.Proofs
end

section
/-! PROOF. The bit-plane datapath within its bounds (41_bitplane_datapath.md R111 to R122): a packed plane is at most
0x55, so two of them add without a carry out, and each subtrahend is a part of what it is taken from. -/

namespace Sys2Proof.Proofs

open Sys2Proof.Machine Sys2Proof.Laws

/-! ## The bits of a plane, and its bound -/

theorem packed_toNat_le : ∀ {P : Byte}, P &&& 0xAA#8 = 0 → P.toNat ≤ 0x55 := by decide

theorem highMask_getLsbD : ∀ {i : Nat}, i < 4 → (0xAA#8).getLsbD (2 * i + 1) = true := by decide

theorem packed_getLsbD_high {P : Byte} (hP : P &&& 0xAA#8 = 0) {i : Nat} (hi : i < 4) :
    P.getLsbD (2 * i + 1) = false := by
  have h := congrArg (·.getLsbD (2 * i + 1)) hP
  simpa [highMask_getLsbD hi] using h

theorem extract_getLsbD_low (x : Byte) {i : Nat} (hi : i < 4) :
    (extract x).getLsbD (2 * i) = x.getLsbD (2 * i + 1) := by
  rw [extract, BitVec.getLsbD_ushiftRight, BitVec.getLsbD_and, Nat.add_comm 1, highMask_getLsbD hi, Bool.and_true]

/-- A plane moved up by a position leaves the low bits of the lanes clear. -/
theorem packed_shiftLeft_getLsbD_low {A : Byte} (hA : A &&& 0xAA#8 = 0) {i : Nat} (hi : i < 4) :
    (A <<< 1).getLsbD (2 * i) = false := by
  cases i with
  | zero => simp
  | succ i =>
    have hodd : A.getLsbD (2 * i + 1) = false := packed_getLsbD_high hA (by omega)
    simp [Nat.mul_succ, hodd]

theorem shiftLeft_getLsbD_high (A : Byte) {i : Nat} (hi : i < 4) :
    (A <<< 1).getLsbD (2 * i + 1) = A.getLsbD (2 * i) := by
  have hlt : 2 * i + 1 < 8 := by omega
  rw [BitVec.getLsbD_shiftLeft, Nat.add_sub_cancel]
  simp [hlt]

/-! ## Exact arithmetic on planes -/

theorem packed_shiftLeft_toNat {A : Byte} (hA : A &&& 0xAA#8 = 0) : (A <<< 1).toNat = 2 * A.toNat := by
  have ha := packed_toNat_le hA
  rw [BitVec.toNat_shiftLeft, Nat.shiftLeft_eq, pow_one, Nat.mod_eq_of_lt (by omega), Nat.mul_comm]

/-- Two planes recombine to a byte without overflow (R115). -/
theorem packed_recombine_toNat {O E : Byte} (hO : O &&& 0xAA#8 = 0) (hE : E &&& 0xAA#8 = 0) :
    (O + (E <<< 1)).toNat = O.toNat + 2 * E.toNat := by
  have ho := packed_toNat_le hO
  have he := packed_toNat_le hE
  rw [BitVec.toNat_add_of_lt (by rw [packed_shiftLeft_toNat hE]; omega), packed_shiftLeft_toNat hE]

section PackedPair

variable (op : Op) {P Q : Byte} (hP : P &&& 0xAA#8 = 0) (hQ : Q &&& 0xAA#8 = 0)
include hP hQ

/-- The sum of two planes does not wrap (R116). -/
theorem packed_add_toNat : (P + Q).toNat = P.toNat + Q.toNat := by
  have hp := packed_toNat_le hP
  have hq := packed_toNat_le hQ
  exact BitVec.toNat_add_of_lt (by omega)

/-- The sum of two planes holds each lane's XOR below the lane's AND (R116). -/
theorem packed_add_eq_or : P + Q = (P ^^^ Q) ||| (P &&& Q) <<< 1 := by
  have hdisj : (P ^^^ Q) &&& (P &&& Q) <<< 1 = 0 :=
    packed_and_shiftLeft (native_packed .xor hP hQ) (native_packed .and hP hQ)
  rw [add_eq_xor_add_and, BitVec.add_eq_or_of_and_eq_zero _ _ hdisj]

theorem packed_add_getLsbD_low {i : Nat} (hi : i < 4) :
    (P + Q).getLsbD (2 * i) = (P.getLsbD (2 * i) ^^ Q.getLsbD (2 * i)) := by
  have hand : (P &&& Q) &&& 0xAA#8 = 0 := native_packed .and hP hQ
  rw [packed_add_eq_or hP hQ, BitVec.getLsbD_or, packed_shiftLeft_getLsbD_low hand hi, Bool.or_false,
    BitVec.getLsbD_xor]

theorem packed_add_getLsbD_high {i : Nat} (hi : i < 4) :
    (P + Q).getLsbD (2 * i + 1) = (P.getLsbD (2 * i) && Q.getLsbD (2 * i)) := by
  have hxor : (P ^^^ Q) &&& 0xAA#8 = 0 := native_packed .xor hP hQ
  rw [packed_add_eq_or hP hQ, BitVec.getLsbD_or, packed_getLsbD_high hxor hi, Bool.false_or,
    shiftLeft_getLsbD_high _ hi, BitVec.getLsbD_and]

theorem planeOp_is_packed : planeOp op extract P Q &&& 0xAA#8 = 0 := by
  rw [planeOp_packed op hP hQ]
  exact native_packed op hP hQ

/-- No plane subtraction borrows: the sum holds every carry at twice its place in the plane AND (R118, R119). -/
theorem two_mul_planeAnd_le : 2 * (planeAnd extract P Q).toNat ≤ (P + Q).toNat := by
  rw [planeAnd_packed hP hQ, packed_add_toNat hP hQ, nat_add_eq_xor_add_and, BitVec.toNat_and]
  exact Nat.le_add_left _ _

/-- The plane operations over the natural numbers are those of the 8-bit datapath (R121). -/
theorem planeNat_planeAnd :
    op.planeNat (P + Q).toNat (planeAnd extract P Q).toNat = (planeOp op extract P Q).toNat := by
  have hle := two_mul_planeAnd_le hP hQ
  have hshift : (planeAnd extract P Q <<< 1).toNat = 2 * (planeAnd extract P Q).toNat :=
    packed_shiftLeft_toNat (planeOp_is_packed .and hP hQ)
  cases op with
  | and => rfl
  | xor => rw [planeOp, planeXor, BitVec.toNat_sub_of_le (by rw [BitVec.le_def]; omega), hshift, Op.planeNat]
  | or => rw [planeOp, planeOr, BitVec.toNat_sub_of_le (by rw [BitVec.le_def]; omega), Op.planeNat]

/-- One plane over the natural numbers: its sum `s`, its plane AND and its result keep the bounds of R121, and the
result is that of the 8-bit datapath. -/
theorem planeNat_exact {s : Nat} (hs : s = P.toNat + Q.toNat) :
    s ≤ 0xAA ∧ (extract (BitVec.ofNat 8 s)).toNat ≤ 0x55 ∧ 2 * (extract (BitVec.ofNat 8 s)).toNat ≤ s ∧
      op.planeNat s (extract (BitVec.ofNat 8 s)).toNat ≤ 0x55 ∧
      op.planeNat s (extract (BitVec.ofNat 8 s)).toNat = (planeOp op extract P Q).toNat := by
  have hp := packed_toNat_le hP
  have hq := packed_toNat_le hQ
  have hsum : s = (P + Q).toNat := hs.trans (packed_add_toNat hP hQ).symm
  have hand : extract (BitVec.ofNat 8 s) = planeAnd extract P Q := by
    rw [hsum, BitVec.ofNat_toNat, BitVec.setWidth_eq, planeAnd]
  have hop : op.planeNat s (planeAnd extract P Q).toNat = (planeOp op extract P Q).toNat :=
    hsum ▸ planeNat_planeAnd op hP hQ
  rw [hand, hop]
  exact ⟨by omega, packed_toNat_le (planeOp_is_packed .and hP hQ), hsum ▸ two_mul_planeAnd_le hP hQ,
    packed_toNat_le (planeOp_is_packed op hP hQ), rfl⟩

end PackedPair

/-- Settles O45: planes add as half adders lane by lane, and the plane operations are the native ones. -/
theorem planeOperationsWorkLaneByLane : Obligations.PlaneOperationsWorkLaneByLane := by
  intro P Q hP hQ
  have hp := packed_toNat_le hP
  have hq := packed_toNat_le hQ
  have hand : planeAnd extract P Q = P &&& Q := planeOp_packed .and hP hQ
  have hxor : planeXor extract P Q = P ^^^ Q := planeOp_packed .xor hP hQ
  have hor : planeOr extract P Q = P ||| Q := planeOp_packed .or hP hQ
  refine ⟨by omega, packed_add_toNat hP hQ, two_mul_planeAnd_le hP hQ, planeOp_is_packed .and hP hQ,
    planeOp_is_packed .xor hP hQ, planeOp_is_packed .or hP hQ, fun i hi => ⟨packed_add_getLsbD_low hP hQ hi,
      packed_add_getLsbD_high hP hQ hi, ?_, ?_, ?_⟩⟩
  · rw [hand, BitVec.getLsbD_and]
  · rw [hxor, BitVec.getLsbD_xor]
  · rw [hor, BitVec.getLsbD_or]

/-! ## The two planes of a byte -/

theorem oddPart_packed (x : Byte) : oddPart x &&& 0xAA#8 = 0 := by
  rw [oddPart, evenPart, sub_extract_shiftLeft]
  exact even_mask_packed x

/-- A byte is twice its E-plane and its O-plane, in exact arithmetic (R115). -/
theorem two_mul_extract_add_oddPart (x : Byte) : 2 * (extract x).toNat + (oddPart x).toNat = x.toNat := by
  rw [Nat.add_comm, ← packed_recombine_toNat (oddPart_packed x) (extract_packed x)]
  exact congrArg BitVec.toNat (sub_add_cancel x (evenPart x))

/-- Settles O44: extraction is a plane, the rest of the byte is the other one, and the two recombine. -/
theorem byteSplitsIntoPlanes : Obligations.ByteSplitsIntoPlanes := by
  intro x
  have hsum := two_mul_extract_add_oddPart x
  have heven : (evenPart x).toNat = 2 * (extract x).toNat := packed_shiftLeft_toNat (extract_packed x)
  exact ⟨fun i hi => ⟨extract_getLsbD_low x hi, packed_getLsbD_high (extract_packed x) hi⟩,
    packed_toNat_le (extract_packed x), extract_shiftLeft x, by omega, sub_extract_shiftLeft x,
    packed_toNat_le (oddPart_packed x), hsum⟩

/-! ## The byte primitive -/

/-- Settles O47: both planes' results are native, and the parts of a byte recombine. -/
theorem directBytePrimitiveIsNative : Obligations.DirectBytePrimitiveIsNative := byteOpDirect_eq_native

/-- Settles O46: each natural number of the computation is the value of the byte that the datapath has there, so the
bounds are those of packed planes. -/
theorem datapathNeverCarriesOrBorrows : Obligations.DatapathNeverCarriesOrBorrows := by
  intro op a b ea eb oa ob se so ae ao re ro
  have hsuma := two_mul_extract_add_oddPart a
  have hsumb := two_mul_extract_add_oddPart b
  have hoa : oa = (oddPart a).toNat := by omega
  have hob : ob = (oddPart b).toNat := by omega
  have hso : so = (oddPart a).toNat + (oddPart b).toNat := by rw [← hoa, ← hob]
  have hea : ea ≤ 0x55 := packed_toNat_le (extract_packed a)
  have heb : eb ≤ 0x55 := packed_toNat_le (extract_packed b)
  have hoaBound := hoa ▸ packed_toNat_le (oddPart_packed a)
  have hobBound := hob ▸ packed_toNat_le (oddPart_packed b)
  obtain ⟨hse, hae, hborrowE, hre, hreEq⟩ := planeNat_exact op (extract_packed a) (extract_packed b) (s := se) rfl
  obtain ⟨hso, hao, hborrowO, hro, hroEq⟩ := planeNat_exact op (oddPart_packed a) (oddPart_packed b) hso
  have hresult : (byteOpDirect op a b).toNat = ro + 2 * re :=
    calc (byteOpDirect op a b).toNat
        = (planeOp op extract (oddPart a) (oddPart b)).toNat + 2 * (planeOp op extract (extract a) (extract b)).toNat :=
          packed_recombine_toNat (planeOp_is_packed op (oddPart_packed a) (oddPart_packed b))
            (planeOp_is_packed op (extract_packed a) (extract_packed b))
      _ = ro + 2 * re := by rw [← hroEq, ← hreEq]
  exact ⟨by omega, by omega, hea, heb, hoaBound, hobBound, hse, hso, hae, hao, hborrowE, hborrowO, hre, hro,
    hresult⟩

end Sys2Proof.Proofs
end

section
/-! PROOF. The lookup table and the byte primitive that reads it (42_lut_variant.md R140, R143, R144). -/

namespace Sys2Proof.Proofs

open Sys2Proof.Machine

/-- The table has one entry for every byte: its rows' lengths add up to 256 (R140). -/
theorem lutTable_length : lutTable.length = 256 := by
  simp only [lutTable, List.length_append]
  rfl

/-- Every byte is an index of the table, so a LUT read answers the entry there and never the default (R143). -/
theorem lutTable_getElem? (x : Byte) : lutTable[x.toNat]? = some (lutRead x) := by
  have hx : x.toNat < lutTable.length := lutTable_length ▸ x.isLt
  rw [List.getElem?_eq_getElem hx, lutRead, List.getD_eq_getElem lutTable 0 hx]

/-- Settles O48: the entry at a byte is what a LUT read of it answers, and that is the byte's extraction. -/
theorem lutHoldsTheExtraction : Obligations.LutHoldsTheExtraction := by
  refine ⟨lutTable_length, fun x => ?_⟩
  rw [lutTable_getElem?, lutRead_eq_extract, extract]

/-- Settles O49: the two primitives compose a byte in the same way, from extractions that agree on every byte. -/
theorem lutBytePrimitiveEqualsDirect : Obligations.LutBytePrimitiveEqualsDirect := by
  intro op a b
  have hX : lutRead = extract := funext lutRead_eq_extract
  rw [byteOpLut, byteOpDirect, hX]

end Sys2Proof.Proofs
end

section
/-! PROOF. The commands' rules (43_byte_commands.md R160 to R166): one lemma for every command, and the 8-bit commands as
its instances. -/

namespace Sys2Proof.Proofs

open Sys2Proof.Machine Sys2Proof.Laws

/-! ## What a command's word is rejected for -/

/-- BUSY is the first check of all (60_exceptions.md R211). -/
theorem rejection_of_busy {s : State} (hb : s.status.busy = true) (c : Word64) : rejection s c = some .busy := by
  rw [rejection, if_pos hb]

/-- The word of a command that an idle block does not implement passes every check but the one for the LUT. -/
theorem rejection_encode_of_not_wellFormed {s : State} {i : Instr} (hb : s.status.busy = false)
    (hw : i.wellFormed s.params = false) : rejection s (encode i) = some .noLut := by
  obtain ⟨hrsvd, hop, hwidth, hv⟩ := encode_fields i
  have hop' : cmdOp (encode i) ≠ 0b11#2 := by rw [ne_eq, ← opOfBits_eq_none_iff, hop]; exact nofun
  have hwidth' : cmdW (encode i) ≠ 0b01#2 := by rw [ne_eq, ← widthOfBits_eq_none_iff, hwidth]; exact nofun
  obtain ⟨hvariant, hlut⟩ : i.variant = .lut ∧ s.params.hasLut = false := by
    rw [← Bool.not_eq_true, wellFormed_iff] at hw
    simpa using hw
  have hv' : cmdV (encode i) = 1#1 := (variantOfBit_eq_lut_iff _).1 (hv.trans hvariant)
  simp [rejection, hb, hrsvd, hop', hwidth', hv', hlut]

/-! ## The end of a command -/

/-- A command that an idle block implements runs to its end state, with the native result. -/
theorem exec_of_wellFormed {s : State} {i : Instr} (hb : s.status.busy = false) (hw : i.wellFormed s.params = true) :
    exec i s = .next (s.ended (encode i) (nativeResult i.op (widthBytes i.width) s.opa s.opb)) := by
  have hr : rejection s (encode i) = none :=
    (rejection_eq_none_iff s (encode i)).2 ⟨hb, (legalWord_encode_iff s.params i).2 hw⟩
  rw [exec_eq, hr, wordOp_eq_nativeResult]
  rfl

/-- A command whose word is rejected changes ERR and ECODE only. -/
theorem exec_of_rejection {s : State} {i : Instr} {e : ErrCode} (h : rejection s (encode i) = some e) :
    exec i s = .next (s.rejected e) := by
  rw [exec_eq, h]
  rfl

/-- Every command meets its rule: its blocks are those that implement it, its result is the native one of its width. -/
theorem meetsRule_encode (i : Instr) :
    MeetsRule i (encode i) (fun s => i.wellFormed s.params)
      (fun s => nativeResult i.op (widthBytes i.width) s.opa s.opb) :=
  ⟨rfl, fun _ hb hw => exec_of_wellFormed hb hw, fun _ hb => exec_of_rejection (rejection_of_busy hb _),
    fun _ hb hw => exec_of_rejection (rejection_encode_of_not_wellFormed hb hw)⟩

/-! ## The 8-bit commands -/

/-- Settles O15: each direct command meets its rule in every block, with the word, operation and width of its row. -/
theorem directByteCommandsMeetRules : Obligations.DirectByteCommandsMeetRules :=
  ⟨meetsRule_encode .xor8, meetsRule_encode .and8, meetsRule_encode .or8⟩

/-- Settles O16: each L command meets its rule in the blocks with the LUT, where its byte primitive is native too. -/
theorem lutByteCommandsMeetRules : Obligations.LutByteCommandsMeetRules :=
  ⟨meetsRule_encode .xor8l, meetsRule_encode .and8l, meetsRule_encode .or8l⟩

end Sys2Proof.Proofs
end

section
/-! PROOF. The word function byte by byte (44_word_commands.md R180), and the rules of the 32-bit and 64-bit commands
(R182 to R193). -/

namespace Sys2Proof.Proofs

open Sys2Proof.Machine Sys2Proof.Laws

/-! ## The word function -/

/-- Byte `j` of the word function is the primitive on the operands' bytes at `j`, and 0 above the width (R180). -/
theorem byteAt_wordOp (f : Byte → Byte → Byte) (n : Nat) {j : Nat} (a b : Word64) (hj : j < 8) :
    byteAt (wordOp f n a b) j = if j < n then f (byteAt a j) (byteAt b j) else 0 := by
  rw [wordOp, byteAt_serialBytes f a b le_rfl hj, Nat.sub_self, Nat.zero_add]

/-- Settles O50: a width of 4 or 8 bytes keeps every byte position of the result inside the word. -/
theorem wordFunctionIsBytewise : Obligations.WordFunctionIsBytewise := by
  intro f n a b hn
  refine ⟨fun j hj => ?_, toNat_serialBytes_lt f n a b n⟩
  have hj8 : j < 8 := by omega
  rw [byteAt_wordOp f n a b hj8, if_pos hj]

/-! ## The 32-bit commands -/

/-- Settles O17: each direct command meets its rule in every block, at a width of 4 bytes. -/
theorem direct32BitCommandsMeetRules : Obligations.Direct32BitCommandsMeetRules :=
  ⟨meetsRule_encode .xor32, meetsRule_encode .and32, meetsRule_encode .or32⟩

/-- Settles O18: each L command meets its rule in the blocks with the LUT, at a width of 4 bytes. -/
theorem lut32BitCommandsMeetRules : Obligations.Lut32BitCommandsMeetRules :=
  ⟨meetsRule_encode .xor32l, meetsRule_encode .and32l, meetsRule_encode .or32l⟩

/-! ## The 64-bit commands -/

/-- At the full width no bit is cut off and none is added. -/
theorem nativeResult_eight (op : Op) (a b : Word64) : nativeResult op 8 a b = op.native a b := by
  simp only [nativeResult, Nat.reduceMul, BitVec.setWidth_eq]

/-- A 64-bit command meets its rule with the operator on the whole operand registers (R188 to R193). -/
theorem meetsRule_encode_of_w64 {i : Instr} (hw : i.width = .w64) :
    MeetsRule i (encode i) (fun s => i.wellFormed s.params) (fun s => i.op.native s.opa s.opb) := by
  have h := meetsRule_encode i
  simp only [hw, widthBytes, nativeResult_eight] at h
  exact h

/-- Settles O19: each direct command meets its rule in every block, on the whole operand registers. -/
theorem direct64BitCommandsMeetRules : Obligations.Direct64BitCommandsMeetRules :=
  ⟨meetsRule_encode_of_w64 (i := .xor64) rfl, meetsRule_encode_of_w64 (i := .and64) rfl,
    meetsRule_encode_of_w64 (i := .or64) rfl⟩

/-- Settles O20: each L command meets its rule in the blocks with the LUT, on the whole operand registers. -/
theorem lut64BitCommandsMeetRules : Obligations.Lut64BitCommandsMeetRules :=
  ⟨meetsRule_encode_of_w64 (i := .xor64l) rfl, meetsRule_encode_of_w64 (i := .and64l) rfl,
    meetsRule_encode_of_w64 (i := .or64l) rfl⟩

end Sys2Proof.Proofs
end

section
/-! PROOF. Exceptions (60_exceptions.md): the rejection codes (R210), and that no event stops the block (R215). -/

namespace Sys2Proof.Proofs

open Sys2Proof.Machine Sys2Proof.Laws

/-! ## The rejection codes -/

/-- R210 reserves the codes 6 to 15. -/
theorem ecodeBits_toNat_lt (e : ErrCode) : (ecodeBits e).toNat < 6 := by
  cases e <;> decide

/-- Settles O24: the six values are those of `ecodeBits`, and it gives no other. -/
theorem errorCodesAsTabled : Obligations.ErrorCodesAsTabled :=
  ⟨rfl, rfl, rfl, rfl, rfl, rfl, ecodeBits_toNat_lt⟩

/-! ## Every step has a next state -/

/-- The unit is the only part of the block that can fault, and under the invariants its turn never does. -/
theorem continues_of_nextIsUnit {s : State} (h : BlockInv s) (hn : s.nextIsUnit) : Continues s := by
  obtain ⟨t, ht, -⟩ := unitTurn_progress (blockInv_frame h s.opa s.opb s.inputs.tail s.answers)
  exact ⟨t, (step_nextIsUnit hn).trans ht⟩

/-- A command word always has an outcome, in every state: it runs to its completion or is rejected (R215). -/
theorem continues_of_command {s : State} {c : Word64} {rest : List Event} (hi : s.inputs = .command c :: rest) :
    Continues s := by
  cases hd : decode c with
  | ok i => exact ⟨_, (step_command_of_ok hi hd).trans (exec_eq i _)⟩
  | error e => exact ⟨_, step_command_of_error hi hd⟩

/-- Settles O7: only the unit's turn needs the invariants; every other event has a next state from any state. -/
theorem invariantStatesNeverStop : Obligations.InvariantStatesNeverStop := by
  intro s h
  cases hi : s.inputs with
  | nil => exact continues_of_nextIsUnit h (.inl hi)
  | cons e rest =>
    cases e with
    | txn t => exact ⟨_, step_txn hi⟩
    | bus a => exact ⟨_, step_bus hi⟩
    | unitTurn => exact continues_of_nextIsUnit h (.inr ⟨rest, hi⟩)
    | command c => exact continues_of_command hi
    | reset => exact ⟨_, step_reset hi⟩

end Sys2Proof.Proofs
end

section
/-! PROOF. Reset (70_reset_and_hazards.md R240), and the reference clock's latencies (R251, R252). -/

namespace Sys2Proof.Proofs

open Sys2Proof.Machine Sys2Proof.Laws

/-! ## Reset -/

/-- Settles O1: the step is the reset event, whatever the block is doing. -/
theorem resetClearsEveryRegister : Obligations.ResetClearsEveryRegister :=
  fun _ _ hi => step_reset hi

/-! ## Clock cycles as events -/

/-- A cycle with a transaction and no reset is the unit's turn, then the transaction (20_memory.md R65). -/
theorem clockEvents_txn_cons (x : Transaction) (cs : List CycleInput) :
    clockEvents ({ rst := false, txn := some x } :: cs) = .unitTurn :: .txn x :: clockEvents cs := rfl

/-- An idle cycle is one turn of the unit. -/
theorem clockEvents_replicate_idleCycle (m : Nat) :
    clockEvents (List.replicate m idleCycle) = List.replicate m .unitTurn := by
  induction m with
  | zero => rfl
  | succ m ih =>
    rw [List.replicate_succ, List.replicate_succ, ← ih]
    rfl

/-! ## Latencies -/

theorem latency_eq_widthBytes (i : Instr) : latency i = widthBytes i.width := nbytes_encode i

/-- A just accepted command takes each of the pending turns, at most NBYTES(W) of them: it is busy before the last of
its bytes, and done after it. -/
theorem JustAccepted.run_turns {s : State} {op : Op} (h : JustAccepted s op) (hd : s.status.done = false) {m : Nat}
    (hm : m ≤ nbytes (cmdW s.lc)) (hi : s.inputs = List.replicate m .unitTurn) :
    ∃ t, runSteps m s = .next t ∧ t.inputs = [] ∧ (t.status.busy = true ↔ m < nbytes (cmdW s.lc)) ∧
      (t.status.done = true ↔ m = nbytes (cmdW s.lc)) := by
  have hturns : UnitsTurns m s.inputs := by
    rw [hi, ← List.append_nil (List.replicate m _)]
    exact unitsTurns_replicate m []
  have hdrop : s.inputs.drop m = [] := by simp [hi]
  obtain hlt | rfl := Nat.lt_or_eq_of_le hm
  · have hbusy : (afterBytes s op m (s.inputs.drop m)).status.busy = true := h.busy
    have hdone : (afterBytes s op m (s.inputs.drop m)).status.done = false := hd
    exact ⟨_, h.run hlt hturns, hdrop, by simp [hbusy, hlt], by simp [hdone, hlt.ne]⟩
  · exact ⟨_, h.run_to_completion hturns, hdrop, by simp [complete, Status.onComplete],
      by simp [complete, Status.onComplete]⟩

/-- Settles O52: the write's cycle is an idle turn and acceptance, and every idle cycle after it is one unit step. -/
theorem referenceLatencies : Obligations.ReferenceLatencies := by
  refine ⟨⟨latency_eq_widthBytes .xor8, latency_eq_widthBytes .xor32, latency_eq_widthBytes .xor64,
    latency_eq_widthBytes⟩, fun s i m hb hw hm hi => ?_⟩
  rw [clockEvents_txn_cons, clockEvents_replicate_idleCycle] at hi
  have hl : legalWord s.params.hasLut (encode i) = true := (legalWord_encode_iff s.params i).2 hw
  have hturn := (step_unitTurn hi).trans (unitTurn_idle (s := { s with inputs := _ }) hb)
  have haccept := step_cmdWrite_accepted
    (s := { s with inputs := .txn (cmdWrite (encode i)) :: List.replicate m .unitTurn }) rfl hb hl
  have hjust := justAccepted_accept hl (opOfBits_encode i) (List.replicate m .unitTurn) (.ok 0)
  rw [runSteps_succ hturn, runSteps_succ haccept]
  exact hjust.run_turns rfl hm rfl

end Sys2Proof.Proofs
end

section
/-! PROOF. The model's own atomic event, and the placement of a command's word as the next one (log entry 3). -/

namespace Sys2Proof.Proofs

open Sys2Proof.Machine

/-- The number of a command word is in range, and stands for that word. -/
theorem tableWord_toNat (c : Word64) : tableWord 64 c.toNat = some c := by
  have hmod : c.toNat % 2 ^ 64 = c.toNat := Nat.mod_eq_of_lt c.isLt
  simp only [tableWord, hmod, if_pos c.isLt, BitVec.ofNat_toNat, BitVec.setWidth_eq]

/-- Placing a word's number makes that word the next event, and changes nothing else. -/
theorem withFetchWord_toNat (s : State) (c : Word64) :
    s.withFetchWord 64 c.toNat = { s with inputs := .command c :: s.inputs } := by
  rw [State.withFetchWord, tableWord_toNat]

/-- Settles O14: a placed command's word is the next event, so the second clause is the first for that event. -/
theorem stepRunsDecodedCommand : Obligations.StepRunsDecodedCommand := by
  refine ⟨fun _ _ _ _ hi hd => step_command_of_ok hi hd, fun s i => ?_,
    fun _ _ _ _ hi hd => step_command_of_error hi hd⟩
  rw [withFetchWord_toNat]
  exact step_command_of_ok rfl (decode_encode i)

end Sys2Proof.Proofs
end
